-- ==== Sys2Proof/Word.lean ====
section
/-! DEFINITION. The word types of the MU0 core: what the spec treats as bits, at the widths rule R7 fixes. -/

namespace Sys2Proof

/-- A word of memory, the accumulator, the instruction register (00_scope.md R7, WORD_WIDTH). -/
abbrev Word := BitVec 16

/-- A word address: the program counter, an operand, a place in memory (00_scope.md R7, ADDR_WIDTH). -/
abbrev Addr := BitVec 12

/-- The opcode field, instruction bits 15:12 (00_scope.md R7, OPCODE_WIDTH). -/
abbrev OpBits := BitVec 4

/-- A byte of a serialised image, outside the core (20_memory.md R44: the core itself has no bytes). -/
abbrev Byte := BitVec 8

end Sys2Proof
end

