-- ==== Sys2Proof/Config.lean ====
section
/-! DEFINITION. The implementation parameters of rule R7 and the two parameters the spec leaves OPEN
(92_eei_decisions.md D7, D12). -/

namespace Sys2Proof.Config

/-- MEM_WORDS of rule R7: addresses 0 to 4095. -/
def memWords : Nat := 4096

/-- OPCODE_WIDTH of rule R7. -/
def opcodeWidth : Nat := 4

/-- OPERAND_WIDTH of rule R7. -/
def operandWidth : Nat := 12

/-- WORD_WIDTH of rule R7, which is also the length of every instruction (R67). -/
def wordWidth : Nat := 16

/-- The two orders in which a loader may lay a 16-bit word out as two bytes. The spec leaves the choice OPEN
as the parameter `image_byte_order` (D7), so it is an argument of the loader, never a constant [15]. -/
inductive ByteOrder where
  | bigEndian
  | littleEndian
deriving DecidableEq, Repr

/-- CYCLES_PER_STEP(op) of rule R177: OPEN, and read by no rule (D12). It has no body, so nothing can be
proved of its values, and no definition of the model reads it [16]. -/
opaque cyclesPerStep : OpBits → Nat

end Sys2Proof.Config
end

