-- ==== Sys2Proof/Syntax.lean ====
section
/-! DEFINITION. The instructions: one constructor per row of spec/opcode_table.json (30_encoding.md R63). -/

namespace Sys2Proof

/-- An instruction: its opcode chooses the constructor, its argument is the 12-bit operand field `a`. `stp` and
opcodes 9 to 15 do not read their operand bits (R64); the bits stay in the term so that encoding drops none [12]. -/
inductive Instr where
  /-- `lda a`, opcode 0: load accumulator (R100). -/
  | lda (a : Addr)
  /-- `sta a`, opcode 1: store accumulator (R101). -/
  | sta (a : Addr)
  /-- `add a`, opcode 2: add memory to accumulator (R110). -/
  | add (a : Addr)
  /-- `sub a`, opcode 3: subtract memory from accumulator (R111). -/
  | sub (a : Addr)
  /-- `jmp a`, opcode 4: jump (R120). -/
  | jmp (a : Addr)
  /-- `jge a`, opcode 5: jump if accumulator ≥ 0 (R121). -/
  | jge (a : Addr)
  /-- `jne a`, opcode 6: jump if accumulator ≠ 0 (R122). -/
  | jne (a : Addr)
  /-- `stp`, opcode 7: stop; `x` is ignored (R130). -/
  | stp (x : Addr)
  /-- `swi a`, opcode 8: signal to the host (R132). -/
  | swi (a : Addr)
  /-- Opcode 9: no assembler mnemonic, a no-op; `x` is ignored (R134). -/
  | undefined9 (x : Addr)
  /-- Opcode 10, a no-op (R134). -/
  | undefined10 (x : Addr)
  /-- Opcode 11, a no-op (R134). -/
  | undefined11 (x : Addr)
  /-- Opcode 12, a no-op (R134). -/
  | undefined12 (x : Addr)
  /-- Opcode 13, a no-op (R134). -/
  | undefined13 (x : Addr)
  /-- Opcode 14, a no-op (R134). -/
  | undefined14 (x : Addr)
  /-- Opcode 15, a no-op (R134). -/
  | undefined15 (x : Addr)
deriving DecidableEq, Repr

/-- The operand field of an instruction, read or ignored. -/
def Instr.operand : Instr → Addr
  | .lda a => a
  | .sta a => a
  | .add a => a
  | .sub a => a
  | .jmp a => a
  | .jge a => a
  | .jne a => a
  | .stp x => x
  | .swi a => a
  | .undefined9 x => x
  | .undefined10 x => x
  | .undefined11 x => x
  | .undefined12 x => x
  | .undefined13 x => x
  | .undefined14 x => x
  | .undefined15 x => x

/-- Opcodes 9 to 15, which have no mnemonic and execute as no-ops (R66, R134). -/
def Instr.isUndefined : Instr → Bool
  | .lda _ => false
  | .sta _ => false
  | .add _ => false
  | .sub _ => false
  | .jmp _ => false
  | .jge _ => false
  | .jne _ => false
  | .stp _ => false
  | .swi _ => false
  | .undefined9 _ => true
  | .undefined10 _ => true
  | .undefined11 _ => true
  | .undefined12 _ => true
  | .undefined13 _ => true
  | .undefined14 _ => true
  | .undefined15 _ => true

/-- The instructions that write the accumulator, and with it the flags: `lda`, `add` and `sub` only (R112). -/
def Instr.writesAcc : Instr → Bool
  | .lda _ => true
  | .sta _ => false
  | .add _ => true
  | .sub _ => true
  | .jmp _ => false
  | .jge _ => false
  | .jne _ => false
  | .stp _ => false
  | .swi _ => false
  | .undefined9 _ => false
  | .undefined10 _ => false
  | .undefined11 _ => false
  | .undefined12 _ => false
  | .undefined13 _ => false
  | .undefined14 _ => false
  | .undefined15 _ => false

end Sys2Proof
end

