-- ==== Sys2Proof/WellFormed.lean ====
section
/-! DEFINITION. The well-formedness checks.

An `Instr` needs none: its operand is 12 bits by its type, and the spec has no illegal instruction (30_encoding.md
R65, R66). What can be ill formed is what comes from outside the core: the bits given as a table word, the bytes of
a serialised image, and an instruction that no assembler source line produces (R66). -/

namespace Sys2Proof

/-- The bits of one instruction as the opcode table numbers them: at most one 16-bit word (R67), and no bit set
at or above `nbits`. DESIGN CHOICE [11]: that fewer than 16 bits pass and a bit beyond `nbits` does not. -/
def tableWordOk (nbits w : Nat) : Bool :=
  decide (nbits ≤ Config.wordWidth) && decide (w < 2 ^ nbits)

/-- A serialised image holds two bytes for each of the 4096 words (00_scope.md R7, 20_memory.md R55). -/
def imageBytesOk (bytes : List Byte) : Bool :=
  bytes.length == 2 * Config.memWords

/-- The instructions a source line with a mnemonic assembles to: opcodes 9 to 15 have no mnemonic, and `stp` is
emitted with operand 0 only (R66, R75). -/
def Instr.assemblable : Instr → Bool
  | .lda _ => true
  | .sta _ => true
  | .add _ => true
  | .sub _ => true
  | .jmp _ => true
  | .jge _ => true
  | .jne _ => true
  | .stp x => x == 0
  | .swi _ => true
  | .undefined9 _ => false
  | .undefined10 _ => false
  | .undefined11 _ => false
  | .undefined12 _ => false
  | .undefined13 _ => false
  | .undefined14 _ => false
  | .undefined15 _ => false

end Sys2Proof
end

