-- ==== Sys2Proof/Decode.lean ====
section
/-! DEFINITION. The decoder, total on every word (30_encoding.md R65), the opcode table it follows, and the encoder
written from the same table (R62, R63). -/

namespace Sys2Proof

/-- `op <- ir[15:12]` (R60). -/
def opField (w : Word) : OpBits := w.extractLsb' 12 4

/-- `a <- ir[11:0]` (R60). -/
def operandField (w : Word) : Addr := w.extractLsb' 0 12

/-- The opcode map of rule R63, one arm per value of bits 15:12, each arm the four bits from bit 15 down. All four
select the row (R61; 90_conflicts.md C2): a word with bit 15 set and bits 14:12 not all zero is an undefined opcode,
never the row of its low three opcode bits. -/
def decodeFields (op : OpBits) (a : Addr) : Instr :=
  match op.getLsbD 3, op.getLsbD 2, op.getLsbD 1, op.getLsbD 0 with
  | false, false, false, false => .lda a
  | false, false, false, true => .sta a
  | false, false, true, false => .add a
  | false, false, true, true => .sub a
  | false, true, false, false => .jmp a
  | false, true, false, true => .jge a
  | false, true, true, false => .jne a
  | false, true, true, true => .stp a
  | true, false, false, false => .swi a
  | true, false, false, true => .undefined9 a
  | true, false, true, false => .undefined10 a
  | true, false, true, true => .undefined11 a
  | true, true, false, false => .undefined12 a
  | true, true, false, true => .undefined13 a
  | true, true, true, false => .undefined14 a
  | true, true, true, true => .undefined15 a

/-- The decoder: every word is exactly one row's (R65). -/
def decode (w : Word) : Instr := decodeFields (opField w) (operandField w)

/-- Bits 15:12 of each row of rule R63, as the table writes them. -/
def Instr.opcode : Instr → OpBits
  | .lda _ => 0b0000#4
  | .sta _ => 0b0001#4
  | .add _ => 0b0010#4
  | .sub _ => 0b0011#4
  | .jmp _ => 0b0100#4
  | .jge _ => 0b0101#4
  | .jne _ => 0b0110#4
  | .stp _ => 0b0111#4
  | .swi _ => 0b1000#4
  | .undefined9 _ => 0b1001#4
  | .undefined10 _ => 0b1010#4
  | .undefined11 _ => 0b1011#4
  | .undefined12 _ => 0b1100#4
  | .undefined13 _ => 0b1101#4
  | .undefined14 _ => 0b1110#4
  | .undefined15 _ => 0b1111#4

/-- `word = {op[3:0], a[11:0]}` (R62). -/
def encode (i : Instr) : Word := i.opcode ++ i.operand

/-- Why bits given from outside the core are not one instruction. -/
inductive DecodeError where
  /-- More bits than the one 16-bit word every instruction has (R67). -/
  | longerThanAWord
  /-- A bit is set at or above the number of bits given. -/
  | bitsBeyondLength
deriving DecidableEq, Repr

/-- The decoder on the bits of a table word, rejecting by name. DESIGN CHOICE [11]: fewer than 16 bits are read as the
word with zeros above them, and a bit set at or above `nbits` is refused; the core itself only decodes whole words
(R67). -/
def decodeBits (nbits w : Nat) : Except DecodeError Instr :=
  if nbits ≤ Config.wordWidth then
    if w < 2 ^ nbits then .ok (decode (BitVec.ofNat 16 w)) else .error .bitsBeyondLength
  else .error .longerThanAWord

/-- What the decoder reads from an instruction whose bits are `w`, numbered as spec/opcode_table.json numbers them:
bit 0 is the least significant bit of the one word an instruction has. -/
def decodeTableWord (nbits w : Nat) : Option Instr :=
  (decodeBits nbits w).toOption

/-- One row of spec/opcode_table.json: the words whose masked bits equal the match are its words. -/
structure OpcodeRow where
  mnemonic : String
  matchBits : Word
  mask : Word
deriving DecidableEq, Repr

/-- spec/opcode_table.json, row by row. -/
def opcodeTable : List OpcodeRow := [
  ⟨"lda", 0x0000#16, 0xF000#16⟩,
  ⟨"sta", 0x1000#16, 0xF000#16⟩,
  ⟨"add", 0x2000#16, 0xF000#16⟩,
  ⟨"sub", 0x3000#16, 0xF000#16⟩,
  ⟨"jmp", 0x4000#16, 0xF000#16⟩,
  ⟨"jge", 0x5000#16, 0xF000#16⟩,
  ⟨"jne", 0x6000#16, 0xF000#16⟩,
  ⟨"stp", 0x7000#16, 0xF000#16⟩,
  ⟨"swi", 0x8000#16, 0xF000#16⟩,
  ⟨"undefined_9", 0x9000#16, 0xF000#16⟩,
  ⟨"undefined_10", 0xA000#16, 0xF000#16⟩,
  ⟨"undefined_11", 0xB000#16, 0xF000#16⟩,
  ⟨"undefined_12", 0xC000#16, 0xF000#16⟩,
  ⟨"undefined_13", 0xD000#16, 0xF000#16⟩,
  ⟨"undefined_14", 0xE000#16, 0xF000#16⟩,
  ⟨"undefined_15", 0xF000#16, 0xF000#16⟩]

/-- A word is one of the row's words. -/
def OpcodeRow.covers (r : OpcodeRow) (w : Word) : Bool := w &&& r.mask == r.matchBits

/-- The name of an instruction as spec/opcode_table.json spells it. -/
def Instr.mnemonic : Instr → String
  | .lda _ => "lda"
  | .sta _ => "sta"
  | .add _ => "add"
  | .sub _ => "sub"
  | .jmp _ => "jmp"
  | .jge _ => "jge"
  | .jne _ => "jne"
  | .stp _ => "stp"
  | .swi _ => "swi"
  | .undefined9 _ => "undefined_9"
  | .undefined10 _ => "undefined_10"
  | .undefined11 _ => "undefined_11"
  | .undefined12 _ => "undefined_12"
  | .undefined13 _ => "undefined_13"
  | .undefined14 _ => "undefined_14"
  | .undefined15 _ => "undefined_15"

end Sys2Proof
end

