-- ==== Sys2Proof/Machine/State.lean ====
section
/-! DEFINITION. The state of the machine (10_state.md, 20_memory.md R40), the reasons a step can stop, and the state
after reset (70_reset_and_hazards.md R170). -/

namespace Sys2Proof.Machine

/-- One word of memory at a word address. The spec's smallest addressable unit is the 16-bit word: there are no byte
addresses and no byte order inside the core (20_memory.md R44), so a cell holds a word [1]. -/
abbrev Cell := Nat × Word

/-- The memory array as the list of its words that differ from what an unlisted address reads as, addresses strictly
rising (`Memory.wf`). -/
abbrev Memory := List Cell

/-- The signal a step returns: exactly three variants (00_scope.md R10). -/
inductive Signal where
  /-- Continue silently: `None`. -/
  | none
  /-- From `stp` only. -/
  | halt
  /-- From `swi 0` only, with the accumulator's signed value (R133). -/
  | numberOutput (v : Int)
deriving DecidableEq, Repr

/-- The state of the core. By R28 there is no other. -/
structure State where
  /-- The accumulator (R20). -/
  acc : Word
  /-- The program counter: between steps, the address of the next instruction to fetch (R21). -/
  pc : Addr
  /-- The instruction register: the last fetched word (R22). -/
  ir : Word
  /-- The zero flag (R23), stored state by decision D19 [9]. -/
  Z : Bool
  /-- The negative flag (R23). -/
  N : Bool
  /-- The halted latch (R27, the spec's decision D3) [7]. -/
  halted : Bool
  /-- The memory array `M[0..4095]` (R40). -/
  mem : Memory
  /-- DESIGN CHOICE [5]: the signal the last step returned (R9, R10). No instruction reads it. -/
  signal : Signal
deriving DecidableEq, Repr

/-- Why a step gives no next state. -/
inductive Fault where
  /-- A step was requested of a halted core: "no step" (R27), which 93_implementation_defined.md row 6 treats as
  `stuck`, the end of the run, not an error of the machine. Raised by `step` alone, never by an instruction. Safe: the
  spec gives a halted core no step to make a claim about [4]. -/
  | halted
deriving DecidableEq, Repr

/-- Why an instruction has no meaning. -/
inductive Refusal where
  /-- Raised by an arm of `exec` whose instruction has no meaning yet; safe. In this model no arm raises it. -/
  | notModelled (mnemonic : String)
deriving DecidableEq, Repr

/-- The machine right after reset (R170), with an image that lists nothing: the fields are the rule's values, the
memory is the empty list [2], and `State.resetWith` gives the reset for every image [3]. -/
def State.reset : State where
  acc := 0x0000#16
  pc := 0x000#12
  ir := 0x0000#16
  Z := true
  N := false
  halted := false
  mem := []
  signal := .none

end Sys2Proof.Machine
end

