-- ==== Sys2Proof/Machine/Ops.lean ====
section
/-! DEFINITION. The named operations over memory and registers (00_scope.md R13), the fetch, the ALU, and reset with
an image.

TAKING AN EXCEPTION has no operation here: the core raises none, saves nothing, has no vector and no return (60_exceptions.md
R150, R154, R155). What stands in its place is `State.emit`, the signal to the host (R152). -/

namespace Sys2Proof.Machine

/-- The signed reading of a word (R12): `w` if `w[15] = 0`, `w - 65536` if `w[15] = 1`. -/
def sint16 (w : Word) : Int :=
  if w.getLsbD 15 then (w.toNat : Int) - 65536 else (w.toNat : Int)

/-! ### The memory array -/

/-- What an address that the memory does not list reads as. DESIGN CHOICE [2]: 0x0000, the word the assembler's images
hold where no line writes (20_memory.md R55, 30_encoding.md R78). -/
def Memory.unlisted : Word := 0x0000#16

/-- The word listed at an address given as a number. -/
def Memory.lookup (k : Nat) : Memory → Word
  | [] => Memory.unlisted
  | (j, w) :: rest => if j = k then w else Memory.lookup k rest

/-- List a word at an address, in place of the word listed there or before the first higher address. -/
def Memory.insert (k : Nat) (v : Word) : Memory → Memory
  | [] => [(k, v)]
  | (j, w) :: rest =>
    if k < j then (k, v) :: (j, w) :: rest
    else if k = j then (k, v) :: rest
    else (j, w) :: Memory.insert k v rest

/-- List nothing at an address. -/
def Memory.erase (k : Nat) : Memory → Memory
  | [] => []
  | (j, w) :: rest => if j = k then Memory.erase k rest else (j, w) :: Memory.erase k rest

/-- `MemRead(a, 1) = M[a]` (R43). -/
def Memory.read (m : Memory) (a : Addr) : Word := Memory.lookup a.toNat m

/-- `MemWrite(a, 1, v) : M[a] <- v`, every other word unchanged (R43). -/
def Memory.write (m : Memory) (a : Addr) (v : Word) : Memory :=
  if v = Memory.unlisted then Memory.erase a.toNat m else Memory.insert a.toNat v m

/-- Every listed address is above `k`, and they rise strictly. -/
def Memory.risesFrom (k : Nat) : Memory → Bool
  | [] => true
  | (j, _) :: rest => decide (k < j) && Memory.risesFrom j rest

/-- The listed addresses rise strictly. -/
def Memory.rises : Memory → Bool
  | [] => true
  | (j, _) :: rest => Memory.risesFrom j rest

/-- The canonical form: addresses strictly rising, each an address of the array (R40), no word listed that an unlisted
address reads as. -/
def Memory.wf (m : Memory) : Bool :=
  Memory.rises m && m.all (fun c => decide (c.1 < Config.memWords) && decide (c.2 ≠ Memory.unlisted))

/-! ### Registers and the signal -/

/-- `MemRead` on the state (R43). -/
def State.memRead (s : State) (a : Addr) : Word := s.mem.read a

/-- `MemWrite` on the state (R43). -/
def State.memWrite (s : State) (a : Addr) (v : Word) : State := { s with mem := s.mem.write a v }

/-- `acc <- v` (R13). -/
def State.setAcc (s : State) (v : Word) : State := { s with acc := v }

/-- `pc <- target` (R13). -/
def State.setPc (s : State) (target : Addr) : State := { s with pc := target }

/-- `halted <- 1` (R130). -/
def State.halt (s : State) : State := { s with halted := true }

/-- `emit(s)` sets the step's signal (R13). -/
def State.emit (s : State) (g : Signal) : State := { s with signal := g }

/-- The Fetch phase of R14: `ir <- MemRead(pc, 1)`, then `pc <- (pc + 1) mod 4096` (R21, R22). The signal starts as
`None`: a step that does not call `emit` returns `None` (R13) [5]. -/
def State.fetch (s : State) : State :=
  { s with ir := s.memRead s.pc, pc := s.pc + 1, signal := .none }

/-! ### The ALU (R15, R113): modulo 2^16, no carry, borrow or overflow indication -/

/-- `(uint(acc) + uint(m)) mod 65536` (R110). -/
def aluAdd (acc m : Word) : Word := acc + m

/-- `(uint(acc) - uint(m)) mod 65536` (R111): accumulator minus memory. -/
def aluSub (acc m : Word) : Word := acc - m

/-! ### Reset with an image (R9, R55, R170) -/

/-- The 4096-word image the host supplies (R163: all 4096 words). -/
abbrev Image := Addr → Word

/-- The words of an image at addresses `k`, …, `k + n - 1`, listed in canonical form. -/
def Memory.ofImageFrom (image : Image) (k : Nat) : Nat → Memory
  | 0 => []
  | n + 1 =>
    let w := image (BitVec.ofNat 12 k)
    if w = Memory.unlisted then Memory.ofImageFrom image (k + 1) n
    else (k, w) :: Memory.ofImageFrom image (k + 1) n

/-- The memory array holding an image: `M[0..4095] = image[0..4095]` (R170). -/
def Memory.ofImage (image : Image) : Memory := Memory.ofImageFrom image 0 Config.memWords

/-- `reset(image)` (R9, R170): the core constructed anew from the image, at any step boundary, also while halted. It
takes no old state, since it reads none of it (D13) [13]. -/
def State.resetWith (image : Image) : State := { State.reset with mem := Memory.ofImage image }

/-- Two bytes as one word, in the loader's byte order (D7) [15]. -/
def wordOfBytes (order : Config.ByteOrder) (first second : Byte) : Word :=
  match order with
  | .bigEndian => first ++ second
  | .littleEndian => second ++ first

/-- A loader of a serialised image outside the core (20_memory.md R44): the word at address `a` is made of bytes `2a`
and `2a + 1`, in the given order; none where the bytes are not 4096 words. -/
def Image.ofBytes (order : Config.ByteOrder) (bytes : List Byte) : Option Image :=
  if bytes.length = 2 * Config.memWords then
    some (fun a => wordOfBytes order (bytes.getD (2 * a.toNat) 0) (bytes.getD (2 * a.toNat + 1) 0))
  else none

end Sys2Proof.Machine
end

