-- ==== Sys2Proof/Machine/Flags.lean ====
section
/-! DEFINITION. The zero/negative flag updater (10_state.md R24), the conditions the jumps read (R23), and the
accumulator write that always goes with an update (41_arithmetic.md R112). -/

namespace Sys2Proof.Machine

/-- `Z <- (acc = 0x0000) ? 1 : 0` (R24). -/
def zeroFlag (acc : Word) : Bool := acc == 0x0000#16

/-- `N <- (sint16(acc) < 0) ? 1 : 0` (R24). -/
def negativeFlag (acc : Word) : Bool := decide (sint16 acc < 0)

/-- The flags recomputed from the accumulator as it stands (R24). -/
def State.updateFlags (s : State) : State :=
  { s with Z := zeroFlag s.acc, N := negativeFlag s.acc }

/-- The accumulator write of `lda`, `add` and `sub`: the value, then the flags recomputed from it in the same step
(R24, R112). -/
def State.writeAcc (s : State) (v : Word) : State := (s.setAcc v).updateFlags

/-- `jge` jumps when the negative flag is false (R121). -/
def geCondition (s : State) : Bool := !s.N

/-- `jne` jumps when the zero flag is false (R122). -/
def neCondition (s : State) : Bool := !s.Z

end Sys2Proof.Machine
end

