-- ==== Sys2Proof/Machine/Operands.lean ====
section
/-! DEFINITION. The operand forms: the 12-bit operand is used as it stands (30_encoding.md R64). There is no immediate,
register, indirect or relative operand (R64, 40_data_transfer.md R102). -/

namespace Sys2Proof.Machine

/-- The effective address of `lda`, `sta`, `add` and `sub`: direct addressing, the operand itself (R102). -/
def dataAddress (a : Addr) : Addr := a

/-- The data operand of `lda`, `add` and `sub`: `MemRead(a, 1)` (R64). -/
def dataOperand (a : Addr) (s : State) : Word := s.memRead (dataAddress a)

/-- The target of `jmp`, `jge` and `jne`: the absolute address written to `pc` (R64, R123). -/
def jumpTarget (a : Addr) : Addr := a

/-- The code of `swi` that asks for output: 0. Codes 1 to 4095 are reserved (R132, R133). -/
def isOutputCode (a : Addr) : Bool := a == 0x000#12

end Sys2Proof.Machine
end

