-- ==== Sys2Proof/Machine/Arithmetic.lean ====
section
/-! DEFINITION. The execute phase of `add` and `sub` (41_arithmetic.md). -/

namespace Sys2Proof.Machine

/-- `add a` (R110): `acc <- (uint(acc) + uint(m)) mod 65536`; recompute flags. -/
def execAdd (a : Addr) (s : State) : Host.Outcome State Fault Refusal :=
  .next (s.writeAcc (aluAdd s.acc (dataOperand a s)))

/-- `sub a` (R111): `acc <- (uint(acc) - uint(m)) mod 65536`; recompute flags. -/
def execSub (a : Addr) (s : State) : Host.Outcome State Fault Refusal :=
  .next (s.writeAcc (aluSub s.acc (dataOperand a s)))

end Sys2Proof.Machine
end

