-- ==== Sys2Proof/Machine/ControlTransfer.lean ====
section
/-! DEFINITION. The execute phase of `jmp`, `jge` and `jne` (42_control_transfer.md). `pc` already holds the address
after the jump, and a jump not taken leaves it there (00_scope.md R14). -/

namespace Sys2Proof.Machine

/-- `pc <- a` where the condition holds; otherwise `pc` keeps the fetch value. -/
def State.jumpIf (s : State) (taken : Bool) (a : Addr) : State :=
  if taken then s.setPc (jumpTarget a) else s

/-- `jmp a` (R120). -/
def execJmp (a : Addr) (s : State) : Host.Outcome State Fault Refusal :=
  .next (s.jumpIf true a)

/-- `jge a` (R121): `if N = 0 then pc <- a`. -/
def execJge (a : Addr) (s : State) : Host.Outcome State Fault Refusal :=
  .next (s.jumpIf (geCondition s) a)

/-- `jne a` (R122): `if Z = 0 then pc <- a`. -/
def execJne (a : Addr) (s : State) : Host.Outcome State Fault Refusal :=
  .next (s.jumpIf (neCondition s) a)

end Sys2Proof.Machine
end

