-- ==== Sys2Proof/Machine/DataTransfer.lean ====
section
/-! DEFINITION. The execute phase of `lda` and `sta` (40_data_transfer.md). The fetch has already set `ir` and advanced
`pc` (00_scope.md R14). -/

namespace Sys2Proof.Machine

/-- `lda a` (R100): `acc <- MemRead(a, 1)`; recompute flags. -/
def execLda (a : Addr) (s : State) : Host.Outcome State Fault Refusal :=
  .next (s.writeAcc (dataOperand a s))

/-- `sta a` (R101): `MemWrite(a, 1, acc)`; flags unchanged. -/
def execSta (a : Addr) (s : State) : Host.Outcome State Fault Refusal :=
  .next (s.memWrite (dataAddress a) s.acc)

end Sys2Proof.Machine
end

