-- ==== Sys2Proof/Machine/System.lean ====
section
/-! DEFINITION. The execute phase of `stp`, `swi` and the undefined opcodes 9 to 15 (43_system.md). -/

namespace Sys2Proof.Machine

/-- `stp` (R130): `halted <- 1; emit(Halt)`. Its operand bits are not read. -/
def execStp (s : State) : Host.Outcome State Fault Refusal :=
  .next (s.halt.emit .halt)

/-- `swi a` (R132): `if a = 0 then emit(NumberOutput(sint16(acc)))`; any other code does nothing (R133). -/
def execSwi (a : Addr) (s : State) : Host.Outcome State Fault Refusal :=
  .next (if isOutputCode a then s.emit (.numberOutput (sint16 s.acc)) else s)

/-- The no-op of R134: no register, flag or memory write, no signal. -/
def State.noOp (s : State) : State := s

/-- Opcode 9 (R134). -/
def execUndefined9 (s : State) : Host.Outcome State Fault Refusal := .next s.noOp

/-- Opcode 10 (R134). -/
def execUndefined10 (s : State) : Host.Outcome State Fault Refusal := .next s.noOp

/-- Opcode 11 (R134). -/
def execUndefined11 (s : State) : Host.Outcome State Fault Refusal := .next s.noOp

/-- Opcode 12 (R134). -/
def execUndefined12 (s : State) : Host.Outcome State Fault Refusal := .next s.noOp

/-- Opcode 13 (R134). -/
def execUndefined13 (s : State) : Host.Outcome State Fault Refusal := .next s.noOp

/-- Opcode 14 (R134). -/
def execUndefined14 (s : State) : Host.Outcome State Fault Refusal := .next s.noOp

/-- Opcode 15 (R134). -/
def execUndefined15 (s : State) : Host.Outcome State Fault Refusal := .next s.noOp

end Sys2Proof.Machine
end

