-- ==== Sys2Proof/Machine/Dispatch.lean ====
section
/-! DEFINITION. The Execute phase of 00_scope.md R14: one meaning per instruction. -/

namespace Sys2Proof.Machine

def exec (i : Instr) (s : State) : Host.Outcome State Fault Refusal :=
  match i with
  | .lda a => Sys2Proof.Machine.execLda a s
  | .sta a => Sys2Proof.Machine.execSta a s
  | .add a => Sys2Proof.Machine.execAdd a s
  | .sub a => Sys2Proof.Machine.execSub a s
  | .jmp a => Sys2Proof.Machine.execJmp a s
  | .jge a => Sys2Proof.Machine.execJge a s
  | .jne a => Sys2Proof.Machine.execJne a s
  | .stp _ => Sys2Proof.Machine.execStp s
  | .swi a => Sys2Proof.Machine.execSwi a s
  | .undefined9 _ => Sys2Proof.Machine.execUndefined9 s
  | .undefined10 _ => Sys2Proof.Machine.execUndefined10 s
  | .undefined11 _ => Sys2Proof.Machine.execUndefined11 s
  | .undefined12 _ => Sys2Proof.Machine.execUndefined12 s
  | .undefined13 _ => Sys2Proof.Machine.execUndefined13 s
  | .undefined14 _ => Sys2Proof.Machine.execUndefined14 s
  | .undefined15 _ => Sys2Proof.Machine.execUndefined15 s

end Sys2Proof.Machine
end

