-- ==== Sys2Proof/Machine/Step.lean ====
section
/-! DEFINITION. One step of the core (00_scope.md R8, R14). -/

namespace Sys2Proof.Machine

/-- Fetch, decode and execute one instruction, atomically. A halted core takes no step (10_state.md R27) [4]. -/
def step (s : State) : Host.Outcome State Fault Refusal :=
  if s.halted then .fault .halted else exec (decode s.fetch.ir) s.fetch

/-- The state whose very next step fetches and runs the instruction with bits `w`: the word stands at `pc`, and the
core is not halted, since a halted core does not fetch [11]. -/
def State.withFetchWord (s : State) (nbits w : Nat) : State :=
  { s with mem := s.mem.write s.pc (BitVec.ofNat 16 (w % 2 ^ nbits)), halted := false }

end Sys2Proof.Machine
end

