-- ==== Sys2Proof/Machine/Pseudocode.lean ====
section
/-! DEFINITION. The instruction-step function as the spec's pseudocode writes it (00_scope.md R13, R14, with the execute
phases of R100 to R134): numbers in place of bit vectors, explicit `mod 65536` and `mod 4096`, and the memory array as the
function `M`. The machine does not use it; it is the reading of the spec that the machine is held against. -/

namespace Sys2Proof.Machine

/-- The registers and the array of rule R13, as unbounded numbers. -/
structure PseudoState where
  acc : Nat
  pc : Nat
  ir : Nat
  Z : Bool
  N : Bool
  halted : Bool
  M : Nat → Nat
  signal : Signal

/-- `MemRead(addr, 1)`: "addresses wrap modulo 4096 everywhere they are used as an address" (20_memory.md R42). -/
def PseudoState.memRead (s : PseudoState) (addr : Nat) : Nat := s.M (addr % 4096)

/-- `MemWrite(addr, 1, v)`. -/
def PseudoState.memWrite (s : PseudoState) (addr v : Nat) : PseudoState :=
  { s with M := fun b => if b = addr % 4096 then v else s.M b }

/-- `acc <- v` and the flag updater of R24. -/
def PseudoState.loadAcc (s : PseudoState) (v : Nat) : PseudoState :=
  { s with acc := v, Z := decide (v = 0), N := decide (32768 ≤ v) }

/-- `sint16` of R12 on a number below 65536. -/
def PseudoState.signedAcc (s : PseudoState) : Int :=
  if s.acc < 32768 then (s.acc : Int) else (s.acc : Int) - 65536

/-- Fetch (R14): `ir <- MemRead(pc, 1); pc <- (pc + 1) mod 4096`; no signal yet (R13). -/
def PseudoState.fetch (s : PseudoState) : PseudoState :=
  { s with ir := s.memRead s.pc, pc := (s.pc + 1) % 4096, signal := .none }

/-- Execute (R14): `case op of`, with the operand `a`. -/
def PseudoState.execute (s : PseudoState) (op a : Nat) : PseudoState :=
  match op with
  | 0 => s.loadAcc (s.memRead a)
  | 1 => s.memWrite a s.acc
  | 2 => s.loadAcc ((s.acc + s.memRead a) % 65536)
  | 3 => s.loadAcc (((s.acc : Int) - (s.memRead a : Int)) % 65536).toNat
  | 4 => { s with pc := a }
  | 5 => if s.N = false then { s with pc := a } else s
  | 6 => if s.Z = false then { s with pc := a } else s
  | 7 => { s with halted := true, signal := .halt }
  | 8 => if a = 0 then { s with signal := .numberOutput s.signedAcc } else s
  | _ => s

/-- The step of R14: fetch, then decode `op <- ir[15:12]`, `a <- ir[11:0]`, then execute. -/
def pseudoStep (s : PseudoState) : PseudoState :=
  s.fetch.execute (s.fetch.ir / 4096 % 16) (s.fetch.ir % 4096)

/-- The state of the machine as the pseudocode's. Addresses of `M` from 4096 on are not read; they hold 0. -/
def State.toPseudo (s : State) : PseudoState where
  acc := s.acc.toNat
  pc := s.pc.toNat
  ir := s.ir.toNat
  Z := s.Z
  N := s.N
  halted := s.halted
  M := fun k => if k < 4096 then (s.mem.read (BitVec.ofNat 12 k)).toNat else 0
  signal := s.signal

end Sys2Proof.Machine
end

