-- ==== Sys2Proof/Machine/Assembler.lean ====
section
/-! DEFINITION. The assembler's accepted syntax and the words it emits (30_encoding.md R68 to R80). It is software
around the core (00_scope.md R6 (b)); these rules fix the text form of the encoding, which "must agree bit-for-bit on
instruction encoding" with the core. Text is a list of characters. -/

namespace Sys2Proof.Machine.Assembler

/-- A token after line preparation: lowercase, no white space (R68). -/
abbrev Token := List Char

/-- The error kinds of R79. -/
inductive AsmError where
  /-- An operand name is neither a label nor an `equ` constant. -/
  | undefinedSymbol (name : Token)
  /-- A literal is not a decimal number 0 to 65535 where one is required (R71, D15). -/
  | invalidLiteral (token : Token)
  /-- A line is of no form of R69 (R79, R80, D17), or defines a name again (R73, D14). Lines count from 1. -/
  | malformedLine (lineNo : Nat)
deriving DecidableEq, Repr

/-! ### Line preparation (R68) -/

/-- White space as `Char.isWhitespace` has it: space, tab, carriage return, line feed [17]. -/
def isSpace (c : Char) : Bool := c.isWhitespace

/-- The tokens of a text, each in lowercase. `cur` holds the token being read, last character first. -/
def splitTokens (cur : List Char) : List Char → List Token
  | [] => if cur.isEmpty then [] else [cur.reverse]
  | c :: cs =>
    if isSpace c then
      if cur.isEmpty then splitTokens [] cs else cur.reverse :: splitTokens [] cs
    else splitTokens (c.toLower :: cur) cs

/-- "everything from `;` to end of line is ignored", and the rest is split on white space (R68). -/
def prepareLine (line : List Char) : List Token :=
  splitTokens [] (line.takeWhile (fun c => c != ';'))

/-- The lines of a text, ended by line feeds [17]. `cur` holds the line being read, last character first. -/
def splitLines (cur : List Char) : List Char → List (List Char)
  | [] => [cur.reverse]
  | c :: cs => if c == '\n' then cur.reverse :: splitLines [] cs else splitLines (c :: cur) cs

/-- The prepared lines with their numbers from `n`; a line with no token produces nothing (R68). -/
def numberLines (n : Nat) : List (List Token) → List (Nat × List Token)
  | [] => []
  | ts :: rest => if ts.isEmpty then numberLines (n + 1) rest else (n, ts) :: numberLines (n + 1) rest

/-- Line preparation of a whole source (R68). -/
def prepare (source : List Char) : List (Nat × List Token) :=
  numberLines 1 ((splitLines [] source).map prepareLine)

/-! ### Literals (R71) -/

/-- The value of decimal digits, read on from `n`. -/
def digitsValue (n : Nat) : List Char → Option Nat
  | [] => some n
  | c :: cs => if c.isDigit then digitsValue (10 * n + (c.toNat - '0'.toNat)) cs else none

/-- A string of decimal digits whose value is 0 to 65535; anything else is no literal (R71, D15). -/
def literal? (t : Token) : Option Nat :=
  if t.isEmpty then none
  else match digitsValue 0 t with
    | some v => if v < 65536 then some v else none
    | none => none

/-- The value of a literal, or the error of R79. -/
def literal (t : Token) : Except AsmError Nat :=
  match literal? t with
  | some v => .ok v
  | none => .error (.invalidLiteral t)

/-! ### Statements (R69, R70) -/

/-- The mnemonics whose operand is a name (R76). -/
inductive NameOp where
  | lda | sta | add | sub | jmp | jge | jne
deriving DecidableEq, Repr

/-- The mnemonics whose operand is a name, as tokens. -/
def nameOp? (t : Token) : Option NameOp :=
  if t = "lda".toList then some .lda
  else if t = "sta".toList then some .sta
  else if t = "add".toList then some .add
  else if t = "sub".toList then some .sub
  else if t = "jmp".toList then some .jmp
  else if t = "jge".toList then some .jge
  else if t = "jne".toList then some .jne
  else none

/-- The instruction of a mnemonic and its 12-bit operand. -/
def NameOp.instr : NameOp → Addr → Instr
  | .lda => .lda
  | .sta => .sta
  | .add => .add
  | .sub => .sub
  | .jmp => .jmp
  | .jge => .jge
  | .jne => .jne

/-- A statement that occupies one word: an instruction or `defw`, its operand still a token. -/
inductive WordStmt where
  | named (op : NameOp) (name : Token)
  | stp
  | swi (lit : Token)
  | defw (lit : Token)
deriving DecidableEq, Repr

/-- One prepared line, classified by its first token (R69, R72). -/
inductive Stmt where
  /-- `org <address>`. -/
  | org (address : Nat)
  /-- `<name> equ <value>`. -/
  | equ (name : Token) (value : Nat)
  /-- An instruction or `defw` with no label. -/
  | word (w : WordStmt)
  /-- A label, alone or before an instruction or `defw`. -/
  | label (name : Token) (w : Option WordStmt)
deriving DecidableEq, Repr

/-- `stp`, `swi` or `defw`, or a mnemonic whose operand is a name. -/
def isWordHead (t : Token) : Bool :=
  (nameOp? t).isSome || t == "stp".toList || t == "swi".toList || t == "defw".toList

/-- The word statement of a line's tokens; none where the line has a token too few or too many (R80). -/
def wordStmt? : List Token → Option WordStmt
  | [t] => if t = "stp".toList then some .stp else none
  | [t, x] =>
    match nameOp? t with
    | some op => some (.named op x)
    | none =>
      if t = "swi".toList then some (.swi x)
      else if t = "defw".toList then some (.defw x)
      else none
  | _ => none

/-- One prepared line by its first token: the four cases of R72, and the refusals of R79 and R80. The word `equ` is no
name (R73, D18). -/
def parseLine (lineNo : Nat) : List Token → Except AsmError Stmt
  | [] => .error (.malformedLine lineNo)
  | t :: rest =>
    if isWordHead t then
      match wordStmt? (t :: rest) with
      | some w => .ok (.word w)
      | none => .error (.malformedLine lineNo)
    else if t = "org".toList then
      match rest with
      | [x] => (literal x).map .org
      | _ => .error (.malformedLine lineNo)
    else if t = "equ".toList then .error (.malformedLine lineNo)
    else
      match rest with
      | [] => .ok (.label t none)
      | u :: more =>
        if u = "equ".toList then
          match more with
          | [x] => (literal x).map (.equ t)
          | _ => .error (.malformedLine lineNo)
        else
          match wordStmt? (u :: more) with
          | some w => .ok (.label t (some w))
          | none => .error (.malformedLine lineNo)

/-! ### Pass 1: addresses and symbols (R72 to R74) -/

/-- Names and their values: a label's 12-bit address or an `equ` literal (R73). -/
abbrev Symbols := List (Token × Nat)

/-- The value a name is bound to. -/
def Symbols.value? (syms : Symbols) (name : Token) : Option Nat :=
  match syms with
  | [] => none
  | (n, v) :: rest => if n = name then some v else Symbols.value? rest name

/-- Bind a name; a name already bound is an error of this line (R73, D14). -/
def Symbols.bind (syms : Symbols) (lineNo : Nat) (name : Token) (v : Nat) : Except AsmError Symbols :=
  match syms.value? name with
  | none => .ok ((name, v) :: syms)
  | some _ => .error (.malformedLine lineNo)

/-- The address counter after a line: `org` sets it, a word moves it on by one (R72). -/
def Stmt.nextAddress (address : Nat) : Stmt → Nat
  | .org v => v
  | .equ _ _ => address
  | .word _ => address + 1
  | .label _ none => address
  | .label _ (some _) => address + 1

/-- The names a line defines: a label is the current address masked to 12 bits (R72, R74). -/
def Stmt.bindNames (lineNo address : Nat) (syms : Symbols) : Stmt → Except AsmError Symbols
  | .org _ => .ok syms
  | .equ name v => syms.bind lineNo name v
  | .word _ => .ok syms
  | .label name _ => syms.bind lineNo name (address % Config.memWords)

/-- Pass 1: classify the lines and bind the names, line by line from an address. -/
def pass1 (address : Nat) (syms : Symbols) : List (Nat × List Token) → Except AsmError (Symbols × List Stmt)
  | [] => .ok (syms, [])
  | (n, ts) :: rest =>
    match parseLine n ts with
    | .error e => .error e
    | .ok st =>
      match st.bindNames n address syms with
      | .error e => .error e
      | .ok syms' =>
        match pass1 (st.nextAddress address) syms' rest with
        | .error e => .error e
        | .ok (symsEnd, sts) => .ok (symsEnd, st :: sts)

/-! ### Pass 2: encoding (R75 to R78) -/

/-- The word a statement writes (R75). An operand name is looked up; operands are masked to 12 bits (R62, R77), a
`defw` literal is not (R70). -/
def WordStmt.encode (syms : Symbols) : WordStmt → Except AsmError Word
  | .named op name =>
    match syms.value? name with
    | some v => .ok (Sys2Proof.encode (op.instr (BitVec.ofNat 12 v)))
    | none => .error (.undefinedSymbol name)
  | .stp => .ok (Sys2Proof.encode (.stp 0x000#12))
  | .swi x => (literal x).map (fun v => Sys2Proof.encode (.swi (BitVec.ofNat 12 v)))
  | .defw x => (literal x).map (fun v => BitVec.ofNat 16 v)

/-- The word statement of a line, if it has one. -/
def Stmt.wordStmt? : Stmt → Option WordStmt
  | .org _ => none
  | .equ _ _ => none
  | .word w => some w
  | .label _ w => w

/-- Pass 2: the words in source order, each with its address modulo 4096 (R74). -/
def pass2 (syms : Symbols) (address : Nat) : List Stmt → Except AsmError (List (Addr × Word))
  | [] => .ok []
  | st :: rest =>
    match st.wordStmt? with
    | none => pass2 syms (st.nextAddress address) rest
    | some w =>
      match w.encode syms with
      | .error e => .error e
      | .ok v =>
        match pass2 syms (st.nextAddress address) rest with
        | .error e => .error e
        | .ok placed => .ok ((BitVec.ofNat 12 address, v) :: placed)

/-- The image of the placed words: written in source order, so that the later line wins, over words that are all
0x0000 (R78). -/
def place (m : Memory) : List (Addr × Word) → Memory
  | [] => m
  | (a, v) :: rest => place (m.write a v) rest

/-- Both passes over prepared lines. -/
def assembleLines (lines : List (Nat × List Token)) : Except AsmError Memory :=
  match pass1 0 [] lines with
  | .error e => .error e
  | .ok (syms, sts) =>
    match pass2 syms 0 sts with
    | .error e => .error e
    | .ok placed => .ok (place [] placed)

/-- The assembler: a source text to the image it assembles to, or the error; no partial image (R79). The image is the
function `Memory.read` of the result. -/
def assemble (source : List Char) : Except AsmError Memory := assembleLines (prepare source)

/-- The error of a failed assembly. -/
def errorOf : Except AsmError Memory → Option AsmError
  | .ok _ => none
  | .error e => some e

end Sys2Proof.Machine.Assembler
end

