-- ==== Sys2Proof/Machine/HostDriver.lean ====
section
/-! DEFINITION. The host driver contract (60_exceptions.md R163): step the core, print each `NumberOutput`, stop on
`Halt`, continue on any other signal. The driver is outside the hardware (00_scope.md R6 (a)); it reads only the
signals (70_reset_and_hazards.md R176) [14]. -/

namespace Sys2Proof.Machine.HostDriver

/-- What the host prints for one value: "a decimal signed integer followed by a line break" (R133). DESIGN CHOICE [23]:
the line break is the single character line feed, since the spec names no character; a sign is written before negative
values only, and no leading zero. -/
def printLine (v : Int) : String := toString v ++ "\n"

/-- What the host does with the signal of a step (R163). -/
inductive Reaction where
  | goOn
  | stop
  | print (v : Int)
deriving DecidableEq, Repr

/-- The driver's duty for each signal (R131, R133, R163). -/
def react : Signal → Reaction
  | .none => .goOn
  | .halt => .stop
  | .numberOutput v => .print v

/-- How a run of the driver stands after a number of steps. -/
inductive Status where
  /-- The step that returned `Halt` ended the run (R176). -/
  | ended
  /-- No `stp` has executed: the run has not ended, and may never (R176). -/
  | running
  /-- A step was requested of a core that gives none: the driver was started on a halted core. -/
  | noStep
deriving DecidableEq, Repr

/-- A run: the values output so far, oldest first, its standing, and the core. -/
structure Run where
  outputs : List Int
  status : Status
  core : State
deriving DecidableEq, Repr

/-- One value output before the rest of a run. -/
def Run.consOutput (v : Int) (r : Run) : Run := { r with outputs := v :: r.outputs }

/-- The driver's loop for at most a number of steps. -/
def drive : Nat → State → Run
  | 0, s => ⟨[], .running, s⟩
  | k + 1, s =>
    match step s with
    | .fault _ => ⟨[], .noStep, s⟩
    | .refused _ => ⟨[], .noStep, s⟩
    | .next t =>
      match react t.signal with
      | .goOn => drive k t
      | .stop => ⟨[], .ended, t⟩
      | .print v => (drive k t).consOutput v

/-- What a run has printed (R163). -/
def Run.printed (r : Run) : List String := r.outputs.map printLine

end Sys2Proof.Machine.HostDriver
end

