-- ==== Sys2Proof/Safety.lean ====
section
/-! DEFINITION. What claims about runs speak of: the invariants, reachability, and the premise that a sum or a
difference does not overflow. -/

namespace Sys2Proof.Machine

/-- `Z = 1` exactly when `acc = 0x0000`, and `N = acc[15]` (10_state.md R26). -/
def FlagsAgree (s : State) : Prop := (s.Z = true ↔ s.acc = 0x0000#16) ∧ s.N = s.acc.getLsbD 15

/-- The memory keeps its canonical form, and the flags agree with the accumulator. -/
def State.Inv (s : State) : Prop := s.mem.wf = true ∧ FlagsAgree s

/-- Some number of steps from reset with an image leads to the state. -/
def Reachable (image : Image) (s : State) : Prop :=
  ∃ k, Host.Core.run Sys2Proof.core k (State.resetWith image) = .next s

/-- The instruction a step of `s` runs: the word at `pc`, decoded (R14). -/
def State.current (s : State) : Instr := decode (s.mem.read s.pc)

/-- The signals of the steps a run takes, in order, at most `k` of them: of each state the run of `j + 1` steps reaches,
the signal its last step left there. A run that has stopped takes no more steps and adds no more signals (R153, R176). -/
def runSignals (k : Nat) (s : State) : List Signal :=
  (List.range k).filterMap fun j =>
    match Host.Core.run Sys2Proof.core (j + 1) s with
    | .next t => some t.signal
    | .fault _ => none
    | .refused _ => none

/-- The value a signal carries, if it is a `NumberOutput` (R10). -/
def Signal.value? : Signal → Option Int
  | .none => Option.none
  | .halt => Option.none
  | .numberOutput v => some v

/-- The signed result fits 16 bits: the premise a careful claim about `add` or `sub` may add, since D4 decides what
happens otherwise [8]. -/
def FitsSigned (v : Int) : Prop := -32768 ≤ v ∧ v ≤ 32767

end Sys2Proof.Machine
end

