-- ==== Sys2Proof/Certificates/Slice0/Obligations.lean ====
section
/-! DEFINITION. The statements for the provers, from the numbered rules of spec/. In a docstring, "stated" names the
rule the statement formalises, "derived" the sections it rests on; `[n]` is notes/assumptions/n.md. -/

open Sys2Proof
open Sys2Proof.Machine
open Sys2Proof.Machine.Assembler
open Sys2Proof.Machine.HostDriver

/-! ### Encoding -/

/-- Derived (95_test_vectors.md 2.1, F3 to F15): words written out from the encodings of R63. -/
def Obligations.SpecWordsDecodeAsWritten : Prop :=
  decode 0b0000111111111111#16 = .lda 0xFFF#12 ∧ decode 0b0001000000000110#16 = .sta 0x006#12 ∧
  decode 0b0010000000000100#16 = .add 0x004#12 ∧ decode 0b0011000000000111#16 = .sub 0x007#12 ∧
  decode 0b0100111111111110#16 = .jmp 0xFFE#12 ∧ decode 0b0101000000000100#16 = .jge 0x004#12 ∧
  decode 0b0110000000000000#16 = .jne 0x000#12 ∧ decode 0b0111101010111100#16 = .stp 0xABC#12 ∧
  decode 0b1000000000000001#16 = .swi 0x001#12 ∧ decode 0b1001000100100011#16 = .undefined9 0x123#12 ∧
  decode 0b1111111111111111#16 = .undefined15 0xFFF#12

/-- Derived (30_encoding.md R60, R62, R63): no bit of any encoding is dropped, for every instruction and operand. -/
def Obligations.DecodeOfEncodeIsIdentity : Prop := ∀ i : Instr, decode (encode i) = i

/-- Derived (30_encoding.md R65, an inference the spec marks as its own): the decoder is total, and every word is the
encoding of exactly one instruction, the one it decodes to. -/
def Obligations.EveryWordEncodesExactlyOneInstruction : Prop :=
  ∀ w : Word, encode (decode w) = w ∧ ∀ i : Instr, encode i = w → i = decode w

/-- Stated: R62. Both forms of the encoding formula. -/
def Obligations.EncodingIsShiftedOpcodeOrMaskedOperand : Prop :=
  ∀ i : Instr,
    encode i = (BitVec.setWidth 16 i.opcode <<< 12) ||| (BitVec.setWidth 16 i.operand &&& 0x0FFF#16) ∧
    encode i = i.opcode ++ i.operand

/-- Stated: R61. All four opcode bits select the instruction; opcodes 0 to 7 have bit 15 clear, `swi` has it set, and
a word with bit 15 set and bits 14:12 not all zero is an undefined opcode and executes as a no-op. -/
def Obligations.AllFourOpcodeBitsSelect : Prop :=
  ∀ w : Word,
    (decode w).opcode = w.extractLsb' 12 4 ∧
    (w.getLsbD 15 = false ↔ (decode w).opcode.toNat ≤ 7) ∧
    ((∃ a, decode w = .swi a) ↔ w.getLsbD 15 = true ∧ w.extractLsb' 12 3 = 0#3) ∧
    ((decode w).isUndefined = true ↔ w.getLsbD 15 = true ∧ w.extractLsb' 12 3 ≠ 0#3) ∧
    (w.getLsbD 15 = true → w.extractLsb' 12 3 ≠ 0#3 → ∀ s : State, exec (decode w) s = .next s)

/-- Derived (30_encoding.md R63, R65): exactly one row of the opcode map covers a word, and it is the row of the
instruction the word decodes to. -/
def Obligations.ExactlyOneOpcodeRowCoversEachWord : Prop :=
  ∀ w : Word, ∃ r ∈ opcodeTable,
    r.covers w = true ∧ r.mnemonic = (decode w).mnemonic ∧ ∀ q ∈ opcodeTable, q.covers w = true → q = r

/-- Derived (30_encoding.md R60, R67: an instruction is one 16-bit word, decoded as the word it is). That bits given with
`nbits` below 16 are read as the word with zeros above them, and that more than 16 bits, or a bit set at or above `nbits`,
are refused, is the model's choice [11]. -/
def Obligations.TableWordsDecodeAsTheWord : Prop :=
  ∀ (nbits w : Nat) (i : Instr),
    decodeTableWord nbits w = some i ↔ tableWordOk nbits w = true ∧ i = decode (BitVec.ofNat 16 w)

/-! ### The step -/

/-- Derived (00_scope.md R14, R13): a step of a core that is not halted is the execute phase of the word at `pc`,
decoded, on the state the fetch leaves: `ir` the fetched word, `pc` advanced by one modulo 4096, and the signal `None`
(the model holds the step's signal in State, [5]). -/
def Obligations.StepRunsTheDecodedInstruction : Prop :=
  ∀ s : State, s.halted = false →
    step s = exec (decode (s.mem.read s.pc))
      { s with ir := s.mem.read s.pc, pc := BitVec.ofNat 12 ((s.pc.toNat + 1) % 4096), signal := .none }

/-- Stated: R14. On a core that is not halted, a step of the machine is the step of the spec's pseudocode, the array
included at all 4096 addresses: the machine refines `pseudoStep`, which is written on numbers, with the case on `op` and
the execute phases of the rules R14 names. -/
def Obligations.StepRefinesThePseudocode : Prop :=
  ∀ s : State, s.halted = false → ∃ t, step s = .next t ∧ t.toPseudo = pseudoStep s.toPseudo

/-- Derived (10_state.md R27, the spec's decision D3; that "no step" is the answer `fault halted` is the model's choice
[4]): `stp` sets the latch, a halted core answers no next state, no step clears the latch, and reset clears it. -/
def Obligations.HaltedCoreTakesNoStep : Prop :=
  (∀ (x : Addr) (s : State), ∃ t, exec (.stp x) s = .next t ∧ t.halted = true) ∧
  (∀ s : State, s.halted = true → step s = .fault .halted) ∧
  (∀ s t : State, step s = .next t → s.halted = false ∧ (t.halted = true ↔ ∃ x, decode (s.mem.read s.pc) = .stp x)) ∧
  (∀ image : Image, (State.resetWith image).halted = false) ∧ State.reset.halted = false

/-- Derived (60_exceptions.md R150, R157, R162; [4]): the only state with no next step is the halted one, and no step is
ever refused or faults for another reason. -/
def Obligations.OnlyTheHaltedCoreHasNoStep : Prop :=
  ∀ s : State,
    ((∃ t, step s = .next t) ↔ s.halted = false) ∧
    (∀ f, step s = .fault f → f = .halted ∧ s.halted = true) ∧
    (∀ r, step s ≠ .refused r)

/-- Stated: R21. The fetch reads `M[pc]` and advances `pc` modulo 4096 before the execute phase; only `jmp`, and
`jge` and `jne` when their condition holds, write `pc` after that; every 12-bit value is a valid instruction address. -/
def Obligations.ProgramCounterAdvancesOrJumps : Prop :=
  (∀ s : State, s.fetch.ir = s.mem.read s.pc ∧ s.fetch.pc.toNat = (s.pc.toNat + 1) % 4096 ∧
    (s.pc = 0xFFF#12 → s.fetch.pc = 0x000#12)) ∧
  (∀ s t : State, step s = .next t →
    (∀ a, decode (s.mem.read s.pc) = .jmp a → t.pc = a) ∧
    (∀ a, decode (s.mem.read s.pc) = .jge a → t.pc = if s.N = false then a else s.pc + 1) ∧
    (∀ a, decode (s.mem.read s.pc) = .jne a → t.pc = if s.Z = false then a else s.pc + 1) ∧
    ((∀ a, decode (s.mem.read s.pc) ≠ .jmp a ∧ decode (s.mem.read s.pc) ≠ .jge a ∧
        decode (s.mem.read s.pc) ≠ .jne a) → t.pc.toNat = (s.pc.toNat + 1) % 4096)) ∧
  (∀ (s : State) (p : Addr), s.halted = false → ∃ t, step { s with pc := p } = .next t)

/-- Derived (10_state.md R22; its reset value is the spec's decision D5 [6]): after a step `ir` is the word fetched, no
instruction reads or writes `ir` as data, so no step depends on what it held, and it is 0x0000 at reset. -/
def Obligations.InstructionRegisterHoldsTheFetchedWord : Prop :=
  (∀ s t : State, step s = .next t → t.ir = s.mem.read s.pc) ∧
  (∀ (s : State) (w : Word), step { s with ir := w } = step s) ∧
  (∀ (i : Instr) (s t : State) (w : Word), exec i s = .next t →
    t.ir = s.ir ∧ exec i { s with ir := w } = .next { t with ir := w }) ∧
  (∀ image : Image, (State.resetWith image).ir = 0x0000#16)

/-- Stated: R10. `Halt` from `stp` only, `NumberOutput(sint16(acc))` from `swi 0` only, `None` from every other
step. -/
def Obligations.SignalOfEveryStep : Prop :=
  ∀ s t : State, step s = .next t →
    (t.signal = .halt ↔ ∃ x, decode (s.mem.read s.pc) = .stp x) ∧
    (∀ v, t.signal = .numberOutput v ↔ decode (s.mem.read s.pc) = .swi 0x000#12 ∧ v = s.acc.toInt) ∧
    (t.signal = .none ↔
      (∀ x, decode (s.mem.read s.pc) ≠ .stp x) ∧ decode (s.mem.read s.pc) ≠ .swi 0x000#12)

/-- Stated: R24, R25, R112. `lda`, `add` and `sub` are the only instructions that write the accumulator, each
recomputes both flags from the value it wrote, in the same step, and every other instruction leaves the accumulator and
both flags unchanged. -/
def Obligations.FlagsFollowOnlyLdaAddSub : Prop :=
  ∀ s t : State, step s = .next t →
    ((∃ a, decode (s.mem.read s.pc) = .lda a ∨ decode (s.mem.read s.pc) = .add a ∨
        decode (s.mem.read s.pc) = .sub a) →
      (t.Z = true ↔ t.acc = 0x0000#16) ∧ (t.N = true ↔ t.acc.toInt < 0) ∧ t.N = t.acc.getLsbD 15) ∧
    ((∀ a, decode (s.mem.read s.pc) ≠ .lda a ∧ decode (s.mem.read s.pc) ≠ .add a ∧
        decode (s.mem.read s.pc) ≠ .sub a) →
      t.acc = s.acc ∧ t.Z = s.Z ∧ t.N = s.N)

/-- Derived (20_memory.md R46, an inference of the spec; R43): a step changes at most one word of memory, the one at the
effective address of a `sta`, which then holds the accumulator; every other step leaves every word unchanged. -/
def Obligations.OnlyStaChangesMemoryAndOneWord : Prop :=
  ∀ s t : State, step s = .next t →
    (∀ a, decode (s.mem.read s.pc) = .sta a →
      t.mem.read (dataAddress a) = s.acc ∧ ∀ b, b ≠ dataAddress a → t.mem.read b = s.mem.read b) ∧
    ((∀ a, decode (s.mem.read s.pc) ≠ .sta a) → ∀ b, t.mem.read b = s.mem.read b)

/-- Derived (20_memory.md R46, 40_data_transfer.md R102): what an instruction does to the registers, the latch and the
signal depends on no word of memory but the one its operand addresses. -/
def Obligations.ExecuteReadsOnlyTheOperandWord : Prop :=
  ∀ (i : Instr) (s t u : State) (m : Memory),
    m.read (dataAddress i.operand) = s.mem.read (dataAddress i.operand) →
    exec i s = .next t → exec i { s with mem := m } = .next u → u = { t with mem := u.mem }

/-! ### Invariants and runs -/

/-- Derived (10_state.md R26, an inference of the spec): every step, from any state whose flags agree with its
accumulator, keeps them in agreement. -/
def Obligations.StepKeepsFlagsInAgreement : Prop :=
  ∀ s t : State, FlagsAgree s → step s = .next t → FlagsAgree t

/-- Derived (20_memory.md R40; the canonical form is the model's [1], [2]): every step keeps the memory in canonical
form, from any state. -/
def Obligations.StepKeepsMemoryCanonical : Prop :=
  ∀ s t : State, s.mem.wf = true → step s = .next t → t.mem.wf = true

/-- Derived (10_state.md R26, 70_reset_and_hazards.md R170; the canonical form is the model's [1]): the state after reset
meets both invariants, for every image. -/
def Obligations.ResetMeetsTheInvariants : Prop :=
  State.reset.Inv ∧ ∀ image : Image, (State.resetWith image).Inv

/-- Derived (10_state.md R26, an inference of the spec): in every state reachable from reset with any image, `Z = 1`
exactly when `acc = 0x0000`, and `N = acc[15]`. -/
def Obligations.ReachableFlagsAgreeWithAccumulator : Prop :=
  ∀ (image : Image) (s : State), Reachable image s →
    (s.Z = true ↔ s.acc = 0x0000#16) ∧ s.N = s.acc.getLsbD 15

/-- Derived (70_reset_and_hazards.md R176, 60_exceptions.md R162; [4]): a run of any length from any state is never
refused, and if it stops, a state it reached before was halted; where the run began on a core that was not halted, that
state was left by the step that signalled `Halt` (a run that begins on a halted core takes no step and has no such
signal). -/
def Obligations.RunsStopOnlyInTheHaltedState : Prop :=
  ∀ (k : Nat) (s : State),
    (∀ r, Host.Core.run core k s ≠ .refused r) ∧
    (∀ f, Host.Core.run core k s = .fault f →
      ∃ j t, j < k ∧ Host.Core.run core j s = .next t ∧ t.halted = true ∧ (s.halted = false → t.signal = .halt))

/-- Derived (70_reset_and_hazards.md R176, 42_control_transfer.md R120): a `jmp` to its own address runs forever, with no
signal and nothing but `ir` and the signal changed. -/
def Obligations.SelfJumpRunsForever : Prop :=
  ∀ (s : State) (k : Nat), s.halted = false → decode (s.mem.read s.pc) = .jmp s.pc →
    ∃ t, Host.Core.run core k s = .next t ∧ t.pc = s.pc ∧ t.acc = s.acc ∧ t.Z = s.Z ∧ t.N = s.N ∧
      t.halted = false ∧ t.mem = s.mem ∧ (0 < k → t.signal = .none)

/-! ### Memory and reset -/

/-- Stated: R43. After any sequence of writes, a read gives the word of the latest write to its address, and what it gave
before where there was none. -/
def Obligations.ReadGivesTheLatestWrite : Prop :=
  ∀ (m : Memory) (writes : List (Addr × Word)) (a : Addr),
    (writes.foldl (fun n c => n.write c.1 c.2) m).read a =
      ((writes.reverse.find? (fun c => decide (c.1 = a))).map Prod.snd).getD (m.read a)

/-- Derived (20_memory.md R40; the canonical form is the model's [1]): two canonical memories whose 4096 words read alike
are the same data. -/
def Obligations.CanonicalMemoriesWithEqualReadsAreEqual : Prop :=
  ∀ m n : Memory, m.wf = true → n.wf = true → (∀ a : Addr, m.read a = n.read a) → m = n

/-- Derived (70_reset_and_hazards.md R170; `ir` and `halted` are the spec's decisions D5 and D3 [6], [7], the signal and
the all-zero image of `State.reset` the model's [5], [2]): reset gives every register its value and loads every word of
the image verbatim, and `State.reset` is the reset with the image of zeros. -/
def Obligations.ResetLoadsTheImageVerbatim : Prop :=
  (∀ image : Image, ∃ m : Memory,
    State.resetWith image = { acc := 0x0000#16, pc := 0x000#12, ir := 0x0000#16, Z := true, N := false,
                              halted := false, mem := m, signal := .none } ∧
    ∀ a : Addr, m.read a = image a) ∧
  State.resetWith (fun _ => 0x0000#16) = State.reset

/-- Derived (70_reset_and_hazards.md R171, R172): the first step after reset executes the image's word at address 0 with
`pc` = 1, the accumulator 0 and the flags `Z` = 1, `N` = 0. -/
def Obligations.FirstStepExecutesAddressZero : Prop :=
  ∀ image : Image, ∃ u : State,
    step (State.resetWith image) = exec (decode (image 0x000#12)) u ∧
    u.pc = 0x001#12 ∧ u.ir = image 0x000#12 ∧ u.acc = 0x0000#16 ∧ u.Z = true ∧ u.N = false ∧
    u.signal = .none ∧ u.halted = false ∧ ∀ a, u.mem.read a = image a

/-- Derived (20_memory.md R44, 92_eei_decisions.md D7; the placing of a word's two bytes is the model's [15]): in either
byte order, every image has a serialised form, and only 8192 bytes are one; the word at address `a` is made of bytes `2a`
and `2a + 1`, of which byte `2a` is the high half in `bigEndian` and the low half in `littleEndian`. -/
def Obligations.EveryImageHasASerialisedForm : Prop :=
  ∀ order : Config.ByteOrder,
    (∀ image : Image, ∃ bytes, Image.ofBytes order bytes = some image) ∧
    (∀ bytes, (∃ image, Image.ofBytes order bytes = some image) ↔ imageBytesOk bytes = true) ∧
    (∀ (bytes : List Byte) (image : Image) (a : Addr) (first second : Byte),
      Image.ofBytes order bytes = some image →
      bytes[2 * a.toNat]? = some first → bytes[2 * a.toNat + 1]? = some second →
      (order = .bigEndian → (image a).toNat = 256 * first.toNat + second.toNat) ∧
      (order = .littleEndian → (image a).toNat = first.toNat + 256 * second.toNat))

/-- Derived (20_memory.md R52, 70_reset_and_hazards.md R174, inferences of the spec): the step of a `sta` executes the
word already fetched, whatever it overwrites; a store to the next address is what the very next step executes; and any
later step that fetches the stored address, whatever other words have been written since, executes the stored word as
long as that address still reads as the store left it. -/
def Obligations.StoreIsSeenByTheNextFetch : Prop :=
  ∀ (s t : State) (a : Addr), decode (s.mem.read s.pc) = .sta a → step s = .next t →
    t.ir = s.mem.read s.pc ∧
    (a = s.pc + 1 → step t = exec (decode s.acc) t.fetch) ∧
    (∀ u : State, u.halted = false → u.pc = a → u.mem.read a = t.mem.read a →
      step u = exec (decode s.acc) u.fetch ∧ u.fetch.ir = s.acc)

/-- Derived (42_control_transfer.md R123, an inference of the spec): no delay slot. The step after a jump executes the
word at its target where the jump is taken, and at the next address where it is not. -/
def Obligations.JumpsHaveNoDelaySlot : Prop :=
  ∀ (s t : State) (a : Addr), step s = .next t →
    (decode (s.mem.read s.pc) = .jmp a ∨ (decode (s.mem.read s.pc) = .jge a ∧ s.N = false) ∨
        (decode (s.mem.read s.pc) = .jne a ∧ s.Z = false) →
      step t = exec (decode (s.mem.read a)) t.fetch) ∧
    ((decode (s.mem.read s.pc) = .jge a ∧ s.N = true) ∨ (decode (s.mem.read s.pc) = .jne a ∧ s.Z = true) →
      step t = exec (decode (s.mem.read (s.pc + 1))) t.fetch)

/-! ### The instructions

Each statement completes: it gives the next state, its result and its frame, for every operand and every state. -/

/-- Stated: R100. -/
def Obligations.LdaLoadsTheWordAndRecomputesFlags : Prop :=
  ∀ (a : Addr) (s : State), ∃ t, exec (.lda a) s = .next t ∧
    t.acc = s.mem.read (dataAddress a) ∧ (t.Z = true ↔ s.mem.read (dataAddress a) = 0x0000#16) ∧
    t.N = (s.mem.read (dataAddress a)).getLsbD 15 ∧
    t.pc = s.pc ∧ t.ir = s.ir ∧ t.halted = s.halted ∧ t.signal = s.signal ∧
    ∀ b, t.mem.read b = s.mem.read b

/-- Stated: R101. -/
def Obligations.StaStoresTheAccumulator : Prop :=
  ∀ (a : Addr) (s : State), ∃ t, exec (.sta a) s = .next t ∧
    t.mem.read (dataAddress a) = s.acc ∧ (∀ b, b ≠ dataAddress a → t.mem.read b = s.mem.read b) ∧
    t.acc = s.acc ∧ t.Z = s.Z ∧ t.N = s.N ∧
    t.pc = s.pc ∧ t.ir = s.ir ∧ t.halted = s.halted ∧ t.signal = s.signal

/-- Stated: R110. The sum is taken on unsigned integers modulo 65536. -/
def Obligations.AddIsTheSumModulo65536 : Prop :=
  ∀ (a : Addr) (s : State), ∃ t, exec (.add a) s = .next t ∧
    t.acc.toNat = (s.acc.toNat + (s.mem.read (dataAddress a)).toNat) % 65536 ∧
    (t.Z = true ↔ t.acc = 0x0000#16) ∧ t.N = t.acc.getLsbD 15 ∧
    t.pc = s.pc ∧ t.ir = s.ir ∧ t.halted = s.halted ∧ t.signal = s.signal ∧
    ∀ b, t.mem.read b = s.mem.read b

/-- Stated: R111. The difference, accumulator minus memory, is taken on unsigned integers modulo 65536. -/
def Obligations.SubIsTheDifferenceModulo65536 : Prop :=
  ∀ (a : Addr) (s : State), ∃ t, exec (.sub a) s = .next t ∧
    (t.acc.toNat : Int) = ((s.acc.toNat : Int) - ((s.mem.read (dataAddress a)).toNat : Int)) % 65536 ∧
    (t.Z = true ↔ t.acc = 0x0000#16) ∧ t.N = t.acc.getLsbD 15 ∧
    t.pc = s.pc ∧ t.ir = s.ir ∧ t.halted = s.halted ∧ t.signal = s.signal ∧
    ∀ b, t.mem.read b = s.mem.read b

/-- Derived (41_arithmetic.md R113; that overflow wraps is the spec's decision D4 [8]): read as signed, the result of `add`
and `sub` is congruent modulo 65536 to the exact sum and difference, and equal to it where it fits 16 bits. -/
def Obligations.SignedArithmeticIsExactOrWraps : Prop :=
  ∀ (a : Addr) (s : State), ∃ t u, exec (.add a) s = .next t ∧ exec (.sub a) s = .next u ∧
    (65536 : Int) ∣ t.acc.toInt - (s.acc.toInt + (s.mem.read a).toInt) ∧
    (65536 : Int) ∣ u.acc.toInt - (s.acc.toInt - (s.mem.read a).toInt) ∧
    FitsSigned t.acc.toInt ∧ FitsSigned u.acc.toInt ∧
    (FitsSigned (s.acc.toInt + (s.mem.read a).toInt) → t.acc.toInt = s.acc.toInt + (s.mem.read a).toInt) ∧
    (FitsSigned (s.acc.toInt - (s.mem.read a).toInt) → u.acc.toInt = s.acc.toInt - (s.mem.read a).toInt)

/-- Stated: R120. -/
def Obligations.JmpWritesTheTarget : Prop :=
  ∀ (a : Addr) (s : State), ∃ t, exec (.jmp a) s = .next t ∧ t.pc = a ∧
    t.acc = s.acc ∧ t.Z = s.Z ∧ t.N = s.N ∧ t.ir = s.ir ∧ t.halted = s.halted ∧ t.signal = s.signal ∧
    ∀ b, t.mem.read b = s.mem.read b

/-- Stated: R121. The condition is the flag `N` of the state, in every state. -/
def Obligations.JgeJumpsWhenNegativeIsClear : Prop :=
  ∀ (a : Addr) (s : State), ∃ t, exec (.jge a) s = .next t ∧
    (s.N = false → t.pc = a) ∧ (s.N = true → t.pc = s.pc) ∧
    t.acc = s.acc ∧ t.Z = s.Z ∧ t.N = s.N ∧ t.ir = s.ir ∧ t.halted = s.halted ∧ t.signal = s.signal ∧
    ∀ b, t.mem.read b = s.mem.read b

/-- Stated: R122. The condition is the flag `Z` of the state, in every state. -/
def Obligations.JneJumpsWhenZeroIsClear : Prop :=
  ∀ (a : Addr) (s : State), ∃ t, exec (.jne a) s = .next t ∧
    (s.Z = false → t.pc = a) ∧ (s.Z = true → t.pc = s.pc) ∧
    t.acc = s.acc ∧ t.Z = s.Z ∧ t.N = s.N ∧ t.ir = s.ir ∧ t.halted = s.halted ∧ t.signal = s.signal ∧
    ∀ b, t.mem.read b = s.mem.read b

/-- Derived (43_system.md R130; the latch is the spec's decision D3 [7], the answer `fault halted` the model's [4]): `stp`
with any operand bits sets the latch and signals `Halt`, changes nothing else, and no step follows. -/
def Obligations.StpHaltsWithNoFurtherStep : Prop :=
  ∀ (x : Addr) (s : State), ∃ t, exec (.stp x) s = .next t ∧ t.halted = true ∧ t.signal = .halt ∧
    t.acc = s.acc ∧ t.pc = s.pc ∧ t.ir = s.ir ∧ t.Z = s.Z ∧ t.N = s.N ∧
    (∀ b, t.mem.read b = s.mem.read b) ∧ exec (.stp 0x000#12) s = .next t ∧ step t = .fault .halted

/-- Stated: R132. Code 0 signals the accumulator's signed value; codes 1 to 4095 signal nothing: the step that runs one
returns `None`. -/
def Obligations.SwiOutputsOnlyForCodeZero : Prop :=
  (∀ (a : Addr) (s : State), ∃ t, exec (.swi a) s = .next t ∧
    (a = 0x000#12 → t.signal = .numberOutput s.acc.toInt) ∧ (a ≠ 0x000#12 → t.signal = s.signal) ∧
    t.acc = s.acc ∧ t.pc = s.pc ∧ t.ir = s.ir ∧ t.Z = s.Z ∧ t.N = s.N ∧ t.halted = s.halted ∧
    ∀ b, t.mem.read b = s.mem.read b) ∧
  (∀ (a : Addr) (s t : State), decode (s.mem.read s.pc) = .swi a → a ≠ 0x000#12 → step s = .next t →
    t.signal = .none)

/-- Stated: R134. Each of opcodes 9 to 15 leaves the whole state as it is; the step that runs one advances `pc` by the
fetch increment and returns `None`. -/
def Obligations.UndefinedOpcodesAreNoOps : Prop :=
  (∀ (x : Addr) (s : State),
    exec (.undefined9 x) s = .next s ∧ exec (.undefined10 x) s = .next s ∧ exec (.undefined11 x) s = .next s ∧
    exec (.undefined12 x) s = .next s ∧ exec (.undefined13 x) s = .next s ∧ exec (.undefined14 x) s = .next s ∧
    exec (.undefined15 x) s = .next s) ∧
  (∀ s : State, s.halted = false → 9 ≤ (s.mem.read s.pc).toNat / 4096 →
    step s = .next { s with ir := s.mem.read s.pc, pc := s.pc + 1, signal := .none })

/-! ### The host driver -/

/-- Derived (60_exceptions.md R153, R163, 70_reset_and_hazards.md R176, 43_system.md R131, R133; the driver is the model's
form of the host's contract [14], the line feed and the digits of a printed value its choice [23]): started on a core that
is not halted, the driver always gets its step, and its core is the one a run of the machine reaches; its outputs are the
values of the `NumberOutput` signals of the steps taken, in order, none dropped and none added, at most one a step, each a
signed 16-bit integer and each printed; and it ends exactly when the core is halted, on the signal `Halt`. -/
def Obligations.DriverEndsExactlyAtHalt : Prop :=
  (react .none = .goOn ∧ react .halt = .stop ∧ ∀ v, react (.numberOutput v) = .print v) ∧
  ∀ (k : Nat) (s : State), s.halted = false →
    (drive k s).status ≠ .noStep ∧
    ((drive k s).status = .ended ↔ (drive k s).core.halted = true) ∧
    ((drive k s).status = .ended → (drive k s).core.signal = .halt) ∧
    (∃ j, j ≤ k ∧ Host.Core.run core j s = .next (drive k s).core ∧ ((drive k s).status = .running → j = k)) ∧
    (drive k s).outputs = (runSignals k s).filterMap Signal.value? ∧
    (drive k s).printed = (drive k s).outputs.map (fun v => toString v ++ "\n") ∧
    (drive k s).outputs.length ≤ k ∧ ∀ v ∈ (drive k s).outputs, FitsSigned v

/-- Derived (43_system.md R130, R131, 70_reset_and_hazards.md R176; [14]): once the driver's run has ended, asking for more
steps adds nothing: no further instruction executes after `Halt`. -/
def Obligations.EndedDriverRunIsFinal : Prop :=
  ∀ (k j : Nat) (s : State), (drive k s).status = .ended → k ≤ j → drive j s = drive k s

/-! ### The assembler -/

/-- Derived (30_encoding.md R68; lowercase is taken on ASCII letters [17]): mnemonics, directives and names are
case-insensitive. -/
def Obligations.AssemblyIgnoresLetterCase : Prop :=
  ∀ source : List Char, assemble (source.map Char.toLower) = assemble source

/-- Derived (30_encoding.md R68): a comment, and white space before, after and between the tokens of a line, do not
matter. -/
def Obligations.LinePreparationDropsCommentsAndSpace : Prop :=
  (∀ line comment : List Char, prepareLine (line ++ ';' :: comment) = prepareLine line) ∧
  (∀ (c : Char) (line : List Char), isSpace c = true →
    prepareLine (c :: line) = prepareLine line ∧ prepareLine (line ++ [c]) = prepareLine line) ∧
  (∀ (line more : List Char) (c d : Char), isSpace c = true → isSpace d = true →
    prepareLine (line ++ c :: d :: more) = prepareLine (line ++ c :: more))

/-- Derived (30_encoding.md R75, R78, inferences of the spec; the canonical form is the model's [1]): the image of a source
that assembles is canonical, holds at each address the word of the last line placed there, and 0x0000 elsewhere. -/
def Obligations.AssembledImageHoldsTheLastLineOfEachAddress : Prop :=
  ∀ (source : List Char) (m : Memory), assemble source = .ok m →
    m.wf = true ∧ ∃ (syms : Symbols) (sts : List Stmt) (placed : List (Addr × Word)),
      pass1 0 [] (prepare source) = .ok (syms, sts) ∧ pass2 syms 0 sts = .ok placed ∧
      ∀ a : Addr, m.read a = ((placed.reverse.find? (fun c => decide (c.1 = a))).map Prod.snd).getD 0x0000#16

/-- Derived (30_encoding.md R75, R62; 95_test_vectors.md 1.2, properties 1 and 2): the word of an instruction with a name
operand has the mnemonic's opcode and the name's value modulo 4096, and the core decodes it to that instruction; an
unbound name is an error. -/
def Obligations.NamedOperandBecomesTheOperandField : Prop :=
  ∀ (op : NameOp) (name : Token) (syms : Symbols),
    (∀ v, syms.value? name = some v → ∃ w : Word, (WordStmt.named op name).encode syms = .ok w ∧
      w.toNat % 4096 = v % 4096 ∧
      w.toNat / 4096 = (op.instr 0x000#12).opcode.toNat ∧
      decode w = op.instr (BitVec.ofNat 12 v)) ∧
    (syms.value? name = none → (WordStmt.named op name).encode syms = .error (.undefinedSymbol name))

/-- Derived (30_encoding.md R70, R77, an inference of the spec; literals are decision D15): the literal of `swi` is masked
to 12 bits, the literal of `defw` is the word. -/
def Obligations.SwiLiteralIsMaskedAndDefwIsNot : Prop :=
  ∀ (x : Token) (v : Nat) (syms : Symbols), literal? x = some v →
    (∃ w : Word, (WordStmt.swi x).encode syms = .ok w ∧ w.toNat = 0x8000 + v % 4096) ∧
    (∃ w : Word, (WordStmt.defw x).encode syms = .ok w ∧ w.toNat = v)

/-- Derived (30_encoding.md R76): an `equ` constant used as an operand is the address itself, for every name that is no
reserved word (R73, D18), every literal and every mnemonic with a name operand; without its definition the operand is an
undefined symbol, and no image results (R79). -/
def Obligations.EquConstantIsTheAddressItself : Prop :=
  ∀ (name x t : Token) (v : Nat) (op : NameOp) (n k : Nat),
    isWordHead name = false → name ≠ "org".toList → name ≠ "equ".toList →
    literal? x = some v → nameOp? t = some op →
    assembleLines [(n, [name, "equ".toList, x]), (k, [t, name])] =
      .ok (Memory.write [] 0x000#12 (encode (op.instr (BitVec.ofNat 12 v)))) ∧
    assembleLines [(k, [t, name])] = .error (.undefinedSymbol name)

/-- Derived (30_encoding.md R73; that a second definition is refused is decision D14): pass 1 never binds a name twice. -/
def Obligations.PassOneNeverBindsANameTwice : Prop :=
  ∀ (address : Nat) (syms final : Symbols) (lines : List (Nat × List Token)) (sts : List Stmt),
    (syms.map Prod.fst).Nodup → pass1 address syms lines = .ok (final, sts) → (final.map Prod.fst).Nodup

/-- Derived (30_encoding.md R72, R74, R78; 95_test_vectors.md 1.2, property 8): a label is the address counter at its line
modulo 4096, and no later line, `org` among them, changes it. -/
def Obligations.LabelKeepsTheAddressOfItsLine : Prop :=
  ∀ (address n : Nat) (syms final : Symbols) (ts : List Token) (rest : List (Nat × List Token))
    (name : Token) (w : Option WordStmt) (sts : List Stmt),
    parseLine n ts = .ok (.label name w) → pass1 address syms ((n, ts) :: rest) = .ok (final, sts) →
    final.value? name = some (address % 4096)

/-- Derived (30_encoding.md R66, R75): a line that is not `defw` emits only instructions with a mnemonic, and `stp` with
operand 0 only. -/
def Obligations.AssembledInstructionsHaveAMnemonic : Prop :=
  ∀ (syms : Symbols) (w : WordStmt) (v : Word),
    (∀ x, w ≠ .defw x) → w.encode syms = .ok v → (decode v).assemblable = true ∧ encode (decode v) = v
end

