-- ==== Sys2Proof/Laws/Encoding.lean ====
section
/-! SUPPORT. The fields of a word and of an encoded instruction (30_encoding.md R60, R62). -/

namespace Sys2Proof

@[simp] theorem opField_append (op : OpBits) (a : Addr) : opField (op ++ a) = op := by
  apply BitVec.eq_of_getLsbD_eq
  intro i hi
  simp only [opField, BitVec.getLsbD_extractLsb', BitVec.getLsbD_append]
  have : ¬ (12 + i < 12) := by omega
  simp [this, hi]

@[simp] theorem operandField_append (op : OpBits) (a : Addr) : operandField (op ++ a) = a := by
  apply BitVec.eq_of_getLsbD_eq
  intro i hi
  simp only [operandField, BitVec.getLsbD_extractLsb', BitVec.getLsbD_append]
  have : 0 + i < 12 := by omega
  simp [hi]

/-- A word is its two fields (R60). -/
theorem fields_append (w : Word) : opField w ++ operandField w = w := by
  apply BitVec.eq_of_getLsbD_eq
  intro i hi
  simp only [opField, operandField, BitVec.getLsbD_extractLsb', BitVec.getLsbD_append]
  by_cases h : i < 12
  · simp [h]
  · have h1 : i - 12 < 4 := by omega
    have h2 : 12 + (i - 12) = i := by omega
    simp [h, h1, h2]

@[simp] theorem opField_encode (i : Instr) : opField (encode i) = i.opcode := opField_append _ _

@[simp] theorem operandField_encode (i : Instr) : operandField (encode i) = i.operand := operandField_append _ _

/-- The decoder drops no bit of either field. -/
theorem decodeFields_fields (op : OpBits) (a : Addr) :
    (decodeFields op a).opcode = op ∧ (decodeFields op a).operand = a := by
  unfold decodeFields
  split <;>
    refine ⟨?_, rfl⟩ <;>
    (apply BitVec.eq_of_getLsbD_eq; intro i hi
     match i, hi with
     | 0, _ => simp_all [Instr.opcode]
     | 1, _ => simp_all [Instr.opcode]
     | 2, _ => simp_all [Instr.opcode]
     | 3, _ => simp_all [Instr.opcode])

end Sys2Proof
end

