-- ==== Sys2Proof/Laws/State.lean ====
section
/-! SUPPORT. One lemma per field per state operation, true by rfl (by cases on the condition
for a jump), so that no proof unfolds a record update. -/

namespace Sys2Proof.Machine

variable (s : State)

@[simp] theorem State.setAcc_acc (v : Word) : (s.setAcc v).acc = v := rfl
@[simp] theorem State.setAcc_pc (v : Word) : (s.setAcc v).pc = s.pc := rfl
@[simp] theorem State.setAcc_ir (v : Word) : (s.setAcc v).ir = s.ir := rfl
@[simp] theorem State.setAcc_Z (v : Word) : (s.setAcc v).Z = s.Z := rfl
@[simp] theorem State.setAcc_N (v : Word) : (s.setAcc v).N = s.N := rfl
@[simp] theorem State.setAcc_halted (v : Word) : (s.setAcc v).halted = s.halted := rfl
@[simp] theorem State.setAcc_mem (v : Word) : (s.setAcc v).mem = s.mem := rfl
@[simp] theorem State.setAcc_signal (v : Word) : (s.setAcc v).signal = s.signal := rfl

@[simp] theorem State.setPc_acc (a : Addr) : (s.setPc a).acc = s.acc := rfl
@[simp] theorem State.setPc_pc (a : Addr) : (s.setPc a).pc = a := rfl
@[simp] theorem State.setPc_ir (a : Addr) : (s.setPc a).ir = s.ir := rfl
@[simp] theorem State.setPc_Z (a : Addr) : (s.setPc a).Z = s.Z := rfl
@[simp] theorem State.setPc_N (a : Addr) : (s.setPc a).N = s.N := rfl
@[simp] theorem State.setPc_halted (a : Addr) : (s.setPc a).halted = s.halted := rfl
@[simp] theorem State.setPc_mem (a : Addr) : (s.setPc a).mem = s.mem := rfl
@[simp] theorem State.setPc_signal (a : Addr) : (s.setPc a).signal = s.signal := rfl

@[simp] theorem State.halt_acc : s.halt.acc = s.acc := rfl
@[simp] theorem State.halt_pc : s.halt.pc = s.pc := rfl
@[simp] theorem State.halt_ir : s.halt.ir = s.ir := rfl
@[simp] theorem State.halt_Z : s.halt.Z = s.Z := rfl
@[simp] theorem State.halt_N : s.halt.N = s.N := rfl
@[simp] theorem State.halt_halted : s.halt.halted = true := rfl
@[simp] theorem State.halt_mem : s.halt.mem = s.mem := rfl
@[simp] theorem State.halt_signal : s.halt.signal = s.signal := rfl

@[simp] theorem State.emit_acc (g : Signal) : (s.emit g).acc = s.acc := rfl
@[simp] theorem State.emit_pc (g : Signal) : (s.emit g).pc = s.pc := rfl
@[simp] theorem State.emit_ir (g : Signal) : (s.emit g).ir = s.ir := rfl
@[simp] theorem State.emit_Z (g : Signal) : (s.emit g).Z = s.Z := rfl
@[simp] theorem State.emit_N (g : Signal) : (s.emit g).N = s.N := rfl
@[simp] theorem State.emit_halted (g : Signal) : (s.emit g).halted = s.halted := rfl
@[simp] theorem State.emit_mem (g : Signal) : (s.emit g).mem = s.mem := rfl
@[simp] theorem State.emit_signal (g : Signal) : (s.emit g).signal = g := rfl

@[simp] theorem State.memWrite_acc (a : Addr) (v : Word) : (s.memWrite a v).acc = s.acc := rfl
@[simp] theorem State.memWrite_pc (a : Addr) (v : Word) : (s.memWrite a v).pc = s.pc := rfl
@[simp] theorem State.memWrite_ir (a : Addr) (v : Word) : (s.memWrite a v).ir = s.ir := rfl
@[simp] theorem State.memWrite_Z (a : Addr) (v : Word) : (s.memWrite a v).Z = s.Z := rfl
@[simp] theorem State.memWrite_N (a : Addr) (v : Word) : (s.memWrite a v).N = s.N := rfl
@[simp] theorem State.memWrite_halted (a : Addr) (v : Word) : (s.memWrite a v).halted = s.halted := rfl
@[simp] theorem State.memWrite_mem (a : Addr) (v : Word) : (s.memWrite a v).mem = s.mem.write a v := rfl
@[simp] theorem State.memWrite_signal (a : Addr) (v : Word) : (s.memWrite a v).signal = s.signal := rfl

@[simp] theorem State.fetch_acc : s.fetch.acc = s.acc := rfl
@[simp] theorem State.fetch_pc : s.fetch.pc = s.pc + 1 := rfl
@[simp] theorem State.fetch_ir : s.fetch.ir = s.mem.read s.pc := rfl
@[simp] theorem State.fetch_Z : s.fetch.Z = s.Z := rfl
@[simp] theorem State.fetch_N : s.fetch.N = s.N := rfl
@[simp] theorem State.fetch_halted : s.fetch.halted = s.halted := rfl
@[simp] theorem State.fetch_mem : s.fetch.mem = s.mem := rfl
@[simp] theorem State.fetch_signal : s.fetch.signal = .none := rfl

@[simp] theorem State.updateFlags_acc : s.updateFlags.acc = s.acc := rfl
@[simp] theorem State.updateFlags_pc : s.updateFlags.pc = s.pc := rfl
@[simp] theorem State.updateFlags_ir : s.updateFlags.ir = s.ir := rfl
@[simp] theorem State.updateFlags_Z : s.updateFlags.Z = zeroFlag s.acc := rfl
@[simp] theorem State.updateFlags_N : s.updateFlags.N = negativeFlag s.acc := rfl
@[simp] theorem State.updateFlags_halted : s.updateFlags.halted = s.halted := rfl
@[simp] theorem State.updateFlags_mem : s.updateFlags.mem = s.mem := rfl
@[simp] theorem State.updateFlags_signal : s.updateFlags.signal = s.signal := rfl

@[simp] theorem State.writeAcc_acc (v : Word) : (s.writeAcc v).acc = v := rfl
@[simp] theorem State.writeAcc_pc (v : Word) : (s.writeAcc v).pc = s.pc := rfl
@[simp] theorem State.writeAcc_ir (v : Word) : (s.writeAcc v).ir = s.ir := rfl
@[simp] theorem State.writeAcc_Z (v : Word) : (s.writeAcc v).Z = zeroFlag v := rfl
@[simp] theorem State.writeAcc_N (v : Word) : (s.writeAcc v).N = negativeFlag v := rfl
@[simp] theorem State.writeAcc_halted (v : Word) : (s.writeAcc v).halted = s.halted := rfl
@[simp] theorem State.writeAcc_mem (v : Word) : (s.writeAcc v).mem = s.mem := rfl
@[simp] theorem State.writeAcc_signal (v : Word) : (s.writeAcc v).signal = s.signal := rfl

@[simp] theorem State.withFetchWord_acc (nbits w : Nat) : (s.withFetchWord nbits w).acc = s.acc := rfl
@[simp] theorem State.withFetchWord_pc (nbits w : Nat) : (s.withFetchWord nbits w).pc = s.pc := rfl
@[simp] theorem State.withFetchWord_ir (nbits w : Nat) : (s.withFetchWord nbits w).ir = s.ir := rfl
@[simp] theorem State.withFetchWord_Z (nbits w : Nat) : (s.withFetchWord nbits w).Z = s.Z := rfl
@[simp] theorem State.withFetchWord_N (nbits w : Nat) : (s.withFetchWord nbits w).N = s.N := rfl
@[simp] theorem State.withFetchWord_halted (nbits w : Nat) : (s.withFetchWord nbits w).halted = false := rfl
@[simp] theorem State.withFetchWord_mem (nbits w : Nat) : (s.withFetchWord nbits w).mem = s.mem.write s.pc (BitVec.ofNat 16 (w % 2 ^ nbits)) := rfl
@[simp] theorem State.withFetchWord_signal (nbits w : Nat) : (s.withFetchWord nbits w).signal = s.signal := rfl

@[simp] theorem State.jumpIf_acc (b : Bool) (a : Addr) : (s.jumpIf b a).acc = s.acc := by cases b <;> rfl
@[simp] theorem State.jumpIf_pc (b : Bool) (a : Addr) : (s.jumpIf b a).pc = if b then a else s.pc := by
  cases b <;> rfl
@[simp] theorem State.jumpIf_ir (b : Bool) (a : Addr) : (s.jumpIf b a).ir = s.ir := by cases b <;> rfl
@[simp] theorem State.jumpIf_Z (b : Bool) (a : Addr) : (s.jumpIf b a).Z = s.Z := by cases b <;> rfl
@[simp] theorem State.jumpIf_N (b : Bool) (a : Addr) : (s.jumpIf b a).N = s.N := by cases b <;> rfl
@[simp] theorem State.jumpIf_halted (b : Bool) (a : Addr) : (s.jumpIf b a).halted = s.halted := by cases b <;> rfl
@[simp] theorem State.jumpIf_mem (b : Bool) (a : Addr) : (s.jumpIf b a).mem = s.mem := by cases b <;> rfl
@[simp] theorem State.jumpIf_signal (b : Bool) (a : Addr) : (s.jumpIf b a).signal = s.signal := by cases b <;> rfl

@[simp] theorem State.memRead_eq (a : Addr) : s.memRead a = s.mem.read a := rfl

@[simp] theorem State.noOp_eq : s.noOp = s := rfl

@[simp] theorem dataAddress_eq (a : Addr) : dataAddress a = a := rfl

@[simp] theorem dataOperand_eq (a : Addr) : dataOperand a s = s.mem.read a := rfl

@[simp] theorem jumpTarget_eq (a : Addr) : jumpTarget a = a := rfl

end Sys2Proof.Machine
end

