-- ==== Sys2Proof/Laws/Exec.lean ====
section
/-! SUPPORT. What the ALU, the flag updater, an instruction and a step can do, each said once. -/

namespace Sys2Proof.Machine

/-! ### Values and flags -/

/-- The reading of R12 is the two's-complement reading of the bit pattern. -/
theorem sint16_eq_toInt (w : Word) : sint16 w = w.toInt := by
  unfold sint16
  have h := w.isLt
  have hm : w.getLsbD 15 = decide (2 ^ 15 ≤ w.toNat) := by
    rw [← BitVec.msb_eq_getLsbD_last w, BitVec.msb_eq_decide]
  rw [hm, BitVec.toInt_eq_toNat_cond]
  simp only [decide_eq_true_eq]
  by_cases hw : 2 ^ 15 ≤ w.toNat
  · rw [if_pos hw, if_neg (by omega : ¬ (2 * w.toNat < 2 ^ 16))]
    rfl
  · rw [if_neg hw, if_pos (by omega : 2 * w.toNat < 2 ^ 16)]

theorem zeroFlag_iff (w : Word) : zeroFlag w = true ↔ w = 0x0000#16 := by simp [zeroFlag]

/-- The two forms R24 gives the negative flag are one. -/
theorem negativeFlag_eq_bit (w : Word) : negativeFlag w = w.getLsbD 15 := by
  have h := w.isLt
  unfold negativeFlag sint16
  split
  · next hb => rw [hb]; simp only [decide_eq_true_eq]; omega
  · next hb => simp only [Bool.not_eq_true] at hb; rw [hb]; simp

theorem aluAdd_toNat (x y : Word) : (aluAdd x y).toNat = (x.toNat + y.toNat) % 65536 := BitVec.toNat_add x y

/-- Writing the accumulator leaves the flags in agreement with it. -/
theorem flagsAgree_writeAcc (s : State) (v : Word) : FlagsAgree (s.writeAcc v) :=
  ⟨zeroFlag_iff v, negativeFlag_eq_bit v⟩

/-- The flags agree or not by three fields alone. -/
theorem flagsAgree_congr {s t : State} (ha : t.acc = s.acc) (hz : t.Z = s.Z) (hn : t.N = s.N) :
    FlagsAgree t ↔ FlagsAgree s := by
  simp only [FlagsAgree, ha, hz, hn]

/-! ### What an instruction can do -/

/-- Everything an instruction can do to the state, by its shape: write the accumulator and flags, store, jump, stop,
signal, or nothing. -/
inductive Effect (i : Instr) (s : State) : State → Prop where
  | writeAcc (v : Word) (hi : i.writesAcc = true) : Effect i s (s.writeAcc v)
  | store (a : Addr) (hi : i = .sta a) : Effect i s (s.memWrite a s.acc)
  | jump (taken : Bool) (a : Addr)
      (hi : (i = .jmp a ∧ taken = true) ∨ (i = .jge a ∧ taken = !s.N) ∨ (i = .jne a ∧ taken = !s.Z)) :
      Effect i s (s.jumpIf taken a)
  | stop (x : Addr) (hi : i = .stp x) : Effect i s (s.halt.emit .halt)
  | output (hi : i = .swi 0x000#12) : Effect i s (s.emit (.numberOutput (sint16 s.acc)))
  | reserved (a : Addr) (hi : i = .swi a) (ha : a ≠ 0x000#12) : Effect i s s
  | undefined (hi : i.isUndefined = true) : Effect i s s

/-- Every instruction answers a next state, and it is one of its effects. -/
theorem exec_effect (i : Instr) (s : State) : ∃ t, exec i s = .next t ∧ Effect i s t := by
  cases i with
  | lda a => exact ⟨_, rfl, .writeAcc _ rfl⟩
  | sta a => exact ⟨_, rfl, .store a rfl⟩
  | add a => exact ⟨_, rfl, .writeAcc _ rfl⟩
  | sub a => exact ⟨_, rfl, .writeAcc _ rfl⟩
  | jmp a => exact ⟨_, rfl, .jump true a (.inl ⟨rfl, rfl⟩)⟩
  | jge a => exact ⟨_, rfl, .jump _ a (.inr (.inl ⟨rfl, rfl⟩))⟩
  | jne a => exact ⟨_, rfl, .jump _ a (.inr (.inr ⟨rfl, rfl⟩))⟩
  | stp x => exact ⟨_, rfl, .stop x rfl⟩
  | swi a =>
    refine ⟨_, rfl, ?_⟩
    by_cases ha : a = 0x000#12
    · subst ha; exact .output rfl
    · have : isOutputCode a = false := by simp [isOutputCode, ha]
      rw [this]; exact .reserved a rfl ha
  | undefined9 x => exact ⟨_, rfl, .undefined rfl⟩
  | undefined10 x => exact ⟨_, rfl, .undefined rfl⟩
  | undefined11 x => exact ⟨_, rfl, .undefined rfl⟩
  | undefined12 x => exact ⟨_, rfl, .undefined rfl⟩
  | undefined13 x => exact ⟨_, rfl, .undefined rfl⟩
  | undefined14 x => exact ⟨_, rfl, .undefined rfl⟩
  | undefined15 x => exact ⟨_, rfl, .undefined rfl⟩

theorem effect_of_exec {i : Instr} {s t : State} (h : exec i s = .next t) : Effect i s t := by
  obtain ⟨t', ht, he⟩ := exec_effect i s
  rw [h] at ht
  cases ht
  exact he

/-! ### What a step can do -/

theorem step_halted {s : State} (h : s.halted = true) : step s = .fault .halted := by simp [step, h]

theorem step_running {s : State} (h : s.halted = false) : step s = exec s.current s.fetch := by
  simp [step, h, State.current]

/-- A step that answers a next state ran the decoded instruction of a core that was not halted. -/
theorem step_next {s t : State} (h : step s = .next t) :
    s.halted = false ∧ exec s.current s.fetch = .next t ∧ Effect s.current s.fetch t := by
  cases hh : s.halted with
  | true => rw [step_halted hh] at h; cases h
  | false => rw [step_running hh] at h; exact ⟨rfl, h, effect_of_exec h⟩

/-- The two outcomes of a step. -/
theorem step_cases (s : State) :
    (s.halted = true ∧ step s = .fault .halted) ∨ (s.halted = false ∧ ∃ t, step s = .next t) := by
  cases hh : s.halted with
  | true => exact .inl ⟨rfl, step_halted hh⟩
  | false =>
    obtain ⟨t, ht, -⟩ := exec_effect s.current s.fetch
    exact .inr ⟨rfl, t, (step_running hh).trans ht⟩

/-! ### Runs and their signals -/

/-- A run that begins with a step goes on from the state after it. -/
theorem run_succ {s t : State} (h : step s = .next t) (k : Nat) :
    Host.Core.run Sys2Proof.core (k + 1) s = Host.Core.run Sys2Proof.core k t := by
  simp only [Host.Core.run]
  rw [show Sys2Proof.core.step s = step s from rfl, h]

/-- A run of one step or more from a halted core stops at once. -/
theorem run_halted {s : State} (h : s.halted = true) (k : Nat) :
    Host.Core.run Sys2Proof.core (k + 1) s = .fault .halted := by
  simp only [Host.Core.run]
  rw [show Sys2Proof.core.step s = step s from rfl, step_halted h]

@[simp] theorem runSignals_zero (s : State) : runSignals 0 s = [] := rfl

/-- The signals of a run are the first step's, then those of the run that goes on. -/
theorem runSignals_succ {s t : State} (h : step s = .next t) (k : Nat) :
    runSignals (k + 1) s = t.signal :: runSignals k t := by
  simp only [runSignals, List.range_succ_eq_map, List.filterMap_cons, List.filterMap_map, Function.comp_def,
    Nat.succ_eq_add_one, run_succ h]
  rfl

/-- A halted core gives no signal. -/
theorem runSignals_halted {s : State} (h : s.halted = true) (k : Nat) : runSignals k s = [] := by
  simp only [runSignals, List.filterMap_eq_nil_iff, run_halted h, implies_true]

end Sys2Proof.Machine
end

