-- ==== Sys2Proof/Laws/Memory.lean ====
section
/-! SUPPORT. The memory array: a write is seen at its address and nowhere else, every operation keeps the canonical
form, and an image is read back as supplied. -/

namespace Sys2Proof.Machine

/-! ### Reading after a write -/

theorem Memory.lookup_insert (k j : Nat) (v : Word) (m : Memory) :
    Memory.lookup j (Memory.insert k v m) = if k = j then v else Memory.lookup j m := by
  induction m with
  | nil => rfl
  | cons c rest ih =>
    obtain ⟨i, w⟩ := c
    simp only [Memory.insert]
    split
    · simp only [Memory.lookup]
    · split
      · next h => subst h; simp only [Memory.lookup]; split <;> rfl
      · next h =>
        simp only [Memory.lookup, ih]
        by_cases hij : i = j
        · subst hij; simp [h]
        · simp [hij]

theorem Memory.lookup_erase (k j : Nat) (m : Memory) :
    Memory.lookup j (Memory.erase k m) = if k = j then Memory.unlisted else Memory.lookup j m := by
  induction m with
  | nil => simp [Memory.erase, Memory.lookup]
  | cons c rest ih =>
    obtain ⟨i, w⟩ := c
    by_cases hik : i = k
    · subst hik
      simp only [Memory.erase, if_true, ih, Memory.lookup]
      split <;> rfl
    · simp only [Memory.erase, hik, if_false, Memory.lookup, ih]
      by_cases hij : i = j
      · subst hij; simp [Ne.symm hik]
      · simp [hij]

/-- What every read gives after one write (20_memory.md R43). -/
theorem Memory.read_write (m : Memory) (a b : Addr) (v : Word) :
    (m.write a v).read b = if a = b then v else m.read b := by
  have hab : a.toNat = b.toNat ↔ a = b := BitVec.toNat_inj
  unfold Memory.write Memory.read
  split
  · next h => rw [Memory.lookup_erase, h]; simp only [hab]
  · rw [Memory.lookup_insert]; simp only [hab]

@[simp] theorem Memory.read_write_same (m : Memory) (a : Addr) (v : Word) : (m.write a v).read a = v := by
  simp [Memory.read_write]

theorem Memory.read_write_other (m : Memory) {a b : Addr} (h : a ≠ b) (v : Word) :
    (m.write a v).read b = m.read b := by
  simp [Memory.read_write, h]

@[simp] theorem Memory.read_nil (a : Addr) : Memory.read [] a = 0x0000#16 := rfl

/-! ### The canonical form -/

theorem Memory.risesFrom_mono {k j : Nat} (h : k ≤ j) {m : Memory} (hm : Memory.risesFrom j m = true) :
    Memory.risesFrom k m = true := by
  cases m with
  | nil => rfl
  | cons c rest =>
    simp only [Memory.risesFrom, Bool.and_eq_true, decide_eq_true_eq] at hm ⊢
    exact ⟨by omega, hm.2⟩

theorem Memory.risesFrom_insert (b k : Nat) (v : Word) (m : Memory) (hb : b < k)
    (hm : Memory.risesFrom b m = true) : Memory.risesFrom b (Memory.insert k v m) = true := by
  induction m generalizing b with
  | nil => simp [Memory.insert, Memory.risesFrom, hb]
  | cons c rest ih =>
    obtain ⟨i, w⟩ := c
    simp only [Memory.risesFrom, Bool.and_eq_true, decide_eq_true_eq] at hm
    simp only [Memory.insert]
    split
    · next h => simp [Memory.risesFrom, hb, h, hm.2]
    · split
      · next h => subst h; simp [Memory.risesFrom, hb, hm.2]
      · next h1 h2 =>
        simp only [Memory.risesFrom, Bool.and_eq_true, decide_eq_true_eq]
        exact ⟨hm.1, ih i (by omega) hm.2⟩

theorem Memory.risesFrom_erase (b k : Nat) (m : Memory) (hm : Memory.risesFrom b m = true) :
    Memory.risesFrom b (Memory.erase k m) = true := by
  induction m generalizing b with
  | nil => rfl
  | cons c rest ih =>
    obtain ⟨i, w⟩ := c
    simp only [Memory.risesFrom, Bool.and_eq_true, decide_eq_true_eq] at hm
    simp only [Memory.erase]
    split
    · exact ih b (Memory.risesFrom_mono (Nat.le_of_lt hm.1) hm.2)
    · simp only [Memory.risesFrom, Bool.and_eq_true, decide_eq_true_eq]
      exact ⟨hm.1, ih i hm.2⟩

theorem Memory.rises_of_risesFrom {b : Nat} {m : Memory} (hm : Memory.risesFrom b m = true) :
    Memory.rises m = true := by
  cases m with
  | nil => rfl
  | cons c rest =>
    simp only [Memory.risesFrom, Bool.and_eq_true] at hm
    exact hm.2

theorem Memory.rises_insert (k : Nat) (v : Word) (m : Memory) (hm : Memory.rises m = true) :
    Memory.rises (Memory.insert k v m) = true := by
  cases m with
  | nil => rfl
  | cons c rest =>
    obtain ⟨i, w⟩ := c
    simp only [Memory.rises] at hm
    simp only [Memory.insert]
    split
    · next h => simp [Memory.rises, Memory.risesFrom, h, hm]
    · split
      · next h => subst h; exact hm
      · next h1 h2 => exact Memory.risesFrom_insert i k v rest (by omega) hm

theorem Memory.rises_erase (k : Nat) (m : Memory) (hm : Memory.rises m = true) :
    Memory.rises (Memory.erase k m) = true := by
  cases m with
  | nil => rfl
  | cons c rest =>
    obtain ⟨i, w⟩ := c
    simp only [Memory.rises] at hm
    simp only [Memory.erase]
    split
    · exact Memory.rises_of_risesFrom (Memory.risesFrom_erase i k rest hm)
    · exact Memory.risesFrom_erase i k rest hm

theorem Memory.mem_insert {k : Nat} {v : Word} {m : Memory} {c : Cell} (h : c ∈ Memory.insert k v m) :
    c = (k, v) ∨ c ∈ m := by
  induction m with
  | nil => simpa [Memory.insert] using h
  | cons d rest ih =>
    obtain ⟨i, w⟩ := d
    simp only [Memory.insert] at h
    split at h
    · simpa using h
    · split at h
      · rcases List.mem_cons.mp h with h | h
        · exact .inl h
        · exact .inr (List.mem_cons_of_mem _ h)
      · rcases List.mem_cons.mp h with h | h
        · exact .inr (h ▸ List.mem_cons_self)
        · exact (ih h).imp_right (List.mem_cons_of_mem _)

theorem Memory.mem_erase {k : Nat} {m : Memory} {c : Cell} (h : c ∈ Memory.erase k m) : c ∈ m := by
  induction m with
  | nil => exact h
  | cons d rest ih =>
    obtain ⟨i, w⟩ := d
    simp only [Memory.erase] at h
    split at h
    · exact List.mem_cons_of_mem _ (ih h)
    · rcases List.mem_cons.mp h with h | h
      · exact h ▸ List.mem_cons_self
      · exact List.mem_cons_of_mem _ (ih h)

/-- The canonical form, unfolded once. -/
theorem Memory.wf_iff (m : Memory) :
    m.wf = true ↔ Memory.rises m = true ∧ ∀ c ∈ m, c.1 < 4096 ∧ c.2 ≠ 0x0000#16 := by
  simp only [Memory.wf, Bool.and_eq_true, List.all_eq_true, decide_eq_true_eq]
  exact Iff.rfl

/-- Every memory operation keeps the canonical form. -/
theorem Memory.wf_write {m : Memory} (hm : m.wf = true) (a : Addr) (v : Word) : (m.write a v).wf = true := by
  rw [Memory.wf_iff] at hm ⊢
  unfold Memory.write
  split
  · exact ⟨Memory.rises_erase _ _ hm.1, fun c hc => hm.2 c (Memory.mem_erase hc)⟩
  · next hv =>
    refine ⟨Memory.rises_insert _ _ _ hm.1, fun c hc => ?_⟩
    rcases Memory.mem_insert hc with h | h
    · subst h; exact ⟨a.isLt, hv⟩
    · exact hm.2 c h

/-! ### The memory of an image -/

theorem Memory.ofImageFrom_spec (image : Image) (k n : Nat) (hk : k + n ≤ 4096) :
    (∀ c ∈ Memory.ofImageFrom image k n, k ≤ c.1 ∧ c.1 < 4096 ∧ c.2 ≠ 0x0000#16) ∧
    (∀ b, b < k → Memory.risesFrom b (Memory.ofImageFrom image k n) = true) ∧
    Memory.rises (Memory.ofImageFrom image k n) = true := by
  induction n generalizing k with
  | zero => simp [Memory.ofImageFrom, Memory.risesFrom, Memory.rises]
  | succ n ih =>
    obtain ⟨h1, h2, h3⟩ := ih (k + 1) (by omega)
    simp only [Memory.ofImageFrom]
    split
    · exact ⟨fun c hc => ⟨by have := h1 c hc; omega, (h1 c hc).2⟩, fun b hb => h2 b (by omega), h3⟩
    · next hw =>
      refine ⟨fun c hc => ?_, fun b hb => ?_, h2 k (by omega)⟩
      · rcases List.mem_cons.mp hc with h | h
        · subst h; exact ⟨Nat.le_refl k, by omega, hw⟩
        · exact ⟨by have := h1 c h; omega, (h1 c h).2⟩
      · simp [Memory.risesFrom, hb, h2 k (by omega)]

/-- The memory of an image is in canonical form. -/
theorem Memory.wf_ofImage (image : Image) : (Memory.ofImage image).wf = true := by
  obtain ⟨h1, -, h3⟩ := Memory.ofImageFrom_spec image 0 4096 (by omega)
  rw [Memory.wf_iff]
  exact ⟨h3, fun c hc => (h1 c hc).2⟩

theorem Memory.lookup_ofImageFrom (image : Image) (k n j : Nat) :
    Memory.lookup j (Memory.ofImageFrom image k n) =
      if k ≤ j ∧ j < k + n then image (BitVec.ofNat 12 j) else Memory.unlisted := by
  induction n generalizing k with
  | zero =>
    have : ¬ (k ≤ j ∧ j < k + 0) := by omega
    simp only [Memory.ofImageFrom, Memory.lookup, if_neg this]
  | succ n ih =>
    simp only [Memory.ofImageFrom]
    by_cases hkj : k = j
    · subst hkj
      have : k ≤ k ∧ k < k + (n + 1) := by omega
      have hno : ¬ (k + 1 ≤ k ∧ k < k + 1 + n) := by omega
      rw [if_pos this]
      split
      · next hw => rw [ih, if_neg hno, hw]
      · simp [Memory.lookup]
    · have : (k + 1 ≤ j ∧ j < k + 1 + n) ↔ (k ≤ j ∧ j < k + (n + 1)) := by omega
      split
      · rw [ih]; simp only [this]
      · simp only [Memory.lookup, if_neg hkj, ih, this]

end Sys2Proof.Machine
end

