-- ==== Sys2Proof/Laws/PerInstr.lean ====
section
/-! SUPPORT. Statements about an instruction as syntax, one lemma per constructor. -/

namespace Sys2Proof.Laws

/-- The opcode and the operand of the encoded word are the instruction's, bit for bit, and the word is the
assembler's formula `(op << 12) | (a & 0xFFF)` read as numbers (30_encoding.md R60, R62). -/
def EncodedFields.Statement (i : Instr) : Prop :=
  opField (encode i) = i.opcode ∧ operandField (encode i) = i.operand ∧
    (encode i).toNat = i.opcode.toNat * 4096 + i.operand.toNat

/-- The law for all instructions at once, from the two fields alone. -/
theorem encodedFields_all (i : Instr) : EncodedFields.Statement i := by
  refine ⟨opField_encode i, operandField_encode i, ?_⟩
  have h := i.operand.isLt
  simp only [encode, BitVec.toNat_append, Nat.shiftLeft_eq]
  rw [← Nat.shiftLeft_eq, ← Nat.shiftLeft_add_eq_or_of_lt h, Nat.shiftLeft_eq]

theorem EncodedFields.lda (a : Addr) : Statement (.lda a) := encodedFields_all _

theorem EncodedFields.sta (a : Addr) : Statement (.sta a) := encodedFields_all _

theorem EncodedFields.add (a : Addr) : Statement (.add a) := encodedFields_all _

theorem EncodedFields.sub (a : Addr) : Statement (.sub a) := encodedFields_all _

theorem EncodedFields.jmp (a : Addr) : Statement (.jmp a) := encodedFields_all _

theorem EncodedFields.jge (a : Addr) : Statement (.jge a) := encodedFields_all _

theorem EncodedFields.jne (a : Addr) : Statement (.jne a) := encodedFields_all _

theorem EncodedFields.stp (x : Addr) : Statement (.stp x) := encodedFields_all _

theorem EncodedFields.swi (a : Addr) : Statement (.swi a) := encodedFields_all _

theorem EncodedFields.undefined9 (x : Addr) : Statement (.undefined9 x) := encodedFields_all _

theorem EncodedFields.undefined10 (x : Addr) : Statement (.undefined10 x) := encodedFields_all _

theorem EncodedFields.undefined11 (x : Addr) : Statement (.undefined11 x) := encodedFields_all _

theorem EncodedFields.undefined12 (x : Addr) : Statement (.undefined12 x) := encodedFields_all _

theorem EncodedFields.undefined13 (x : Addr) : Statement (.undefined13 x) := encodedFields_all _

theorem EncodedFields.undefined14 (x : Addr) : Statement (.undefined14 x) := encodedFields_all _

theorem EncodedFields.undefined15 (x : Addr) : Statement (.undefined15 x) := encodedFields_all _

end Sys2Proof.Laws
end

