-- ==== Sys2Proof/Tests/Slice0.lean ====
section
/-! SUPPORT. Tests whose expected results are the spec's worked vectors (95_test_vectors.md; the vector is named in each
group's comment), the smoke tests of the well-formedness checks, and a witness for the hypotheses of every statement. -/

namespace Sys2Proof.Tests

open Sys2Proof.Machine
open Sys2Proof.Machine.Assembler
open Sys2Proof.Machine.HostDriver

/-! ### Helpers -/

/-- A core about to run the word `w` at address `pc`, with an accumulator, its flags, and one more word of memory. -/
def ready (pc : Addr) (w : Word) (acc : Word) (Z N : Bool) (a : Addr) (v : Word) : State :=
  { State.reset with pc := pc, acc := acc, Z := Z, N := N, mem := (Memory.write [] a v).write pc w }

/-- What a step leaves, as far as a test looks. -/
structure Seen where
  acc : Word
  Z : Bool
  N : Bool
  pc : Addr
  signal : Signal
  halted : Bool
deriving DecidableEq, Repr

/-- The next state, for a test: the state itself where there is none. -/
def after (s : State) : State :=
  match step s with
  | .next t => t
  | .fault _ => s
  | .refused _ => s

/-- What one step leaves. -/
def seen (s : State) : Seen :=
  let t := after s
  ⟨t.acc, t.Z, t.N, t.pc, t.signal, t.halted⟩

/-! ### Decoding: one word for each row of R63, written out bit by bit (vectors F1 to F15) -/

theorem test_decode_lda : decode 0b0000000000000010#16 = .lda 0x002#12 := by decide
theorem test_decode_sta : decode 0b0001000000000110#16 = .sta 0x006#12 := by decide
theorem test_decode_add : decode 0b0010000000000100#16 = .add 0x004#12 := by decide
theorem test_decode_sub : decode 0b0011000000000111#16 = .sub 0x007#12 := by decide
theorem test_decode_jmp : decode 0b0100111111111110#16 = .jmp 0xFFE#12 := by decide
theorem test_decode_jge : decode 0b0101000000000100#16 = .jge 0x004#12 := by decide
theorem test_decode_jne : decode 0b0110000000000000#16 = .jne 0x000#12 := by decide
theorem test_decode_stp : decode 0b0111101010111100#16 = .stp 0xABC#12 := by decide
theorem test_decode_swi : decode 0b1000000000000001#16 = .swi 0x001#12 := by decide
theorem test_decode_undefined9 : decode 0b1001000100100011#16 = .undefined9 0x123#12 := by decide
theorem test_decode_undefined10 : decode 0b1010000100100011#16 = .undefined10 0x123#12 := by decide
theorem test_decode_undefined11 : decode 0b1011000000000000#16 = .undefined11 0x000#12 := by decide
theorem test_decode_undefined12 : decode 0b1100000000000001#16 = .undefined12 0x001#12 := by decide
theorem test_decode_undefined13 : decode 0b1101100000000000#16 = .undefined13 0x800#12 := by decide
theorem test_decode_undefined14 : decode 0b1110010101010101#16 = .undefined14 0x555#12 := by decide
theorem test_decode_undefined15 : decode 0b1111111111111111#16 = .undefined15 0xFFF#12 := by decide

/-! ### Well-formedness: each check refuses an ill-formed term -/

theorem test_tableWord_too_long : tableWordOk 17 0x2004 = false := by decide
theorem test_tableWord_bit_beyond : tableWordOk 16 0x10000 = false := by decide
theorem test_tableWord_too_long_by_name : (decodeTableWord 17 0x2004).isNone = true := by decide
theorem test_imageBytes_too_short : imageBytesOk [0x00#8] = false := by decide
theorem test_assemblable_refuses_stp_operand : (Instr.stp 0xABC#12).assemblable = false := by decide
theorem test_assemblable_refuses_undefined : (Instr.undefined9 0x000#12).assemblable = false := by decide
theorem test_memory_wf_refuses_order : Memory.wf [(5, 1#16), (4, 1#16)] = false := by decide
theorem test_memory_wf_refuses_address : Memory.wf [(4096, 1#16)] = false := by decide
theorem test_memory_wf_refuses_default : Memory.wf [(4, 0#16)] = false := by decide

/-! ### The host's interface -/

theorem test_withFetchWord_runs :
    (after (State.reset.withFetchWord 16 0x4FFE)).pc = 0xFFE#12 := by decide

theorem test_decodeTableWord : decodeTableWord 16 0x2004 = some (.add 0x004#12) := by decide

/-! ### Data transfer (L1, L3, S1, S3) -/

theorem test_lda : seen (ready 0x000#12 0x0002#16 0x0000#16 true false 0x002#12 0x0007#16) =
    ⟨0x0007#16, false, false, 0x001#12, .none, false⟩ := by decide

theorem test_lda_negative : seen (ready 0x000#12 0x0010#16 0x0000#16 true false 0x010#12 0x8000#16) =
    ⟨0x8000#16, false, true, 0x001#12, .none, false⟩ := by decide

theorem test_sta : (after (ready 0x002#12 0x1006#16 0x0002#16 false false 0x006#12 0x0003#16)).mem =
    [(2, 0x1006#16), (6, 0x0002#16)] := by decide

theorem test_sta_self : (after (ready 0x004#12 0x1004#16 0x7000#16 false false 0x006#12 0x0000#16)).mem =
    [(4, 0x7000#16)] := by decide

/-! ### Arithmetic (A2, A5, B2, B4) -/

theorem test_add_wraps : seen (ready 0x000#12 0x2004#16 0x7FFF#16 false false 0x004#12 0x0001#16) =
    ⟨0x8000#16, false, true, 0x001#12, .none, false⟩ := by decide

theorem test_add_negative : seen (ready 0x000#12 0x2004#16 0x8000#16 false true 0x004#12 0xFFFF#16) =
    ⟨0x7FFF#16, false, false, 0x001#12, .none, false⟩ := by decide

theorem test_sub_below_zero : seen (ready 0x000#12 0x3007#16 0x0000#16 true false 0x007#12 0x0001#16) =
    ⟨0xFFFF#16, false, true, 0x001#12, .none, false⟩ := by decide

theorem test_sub_wraps : seen (ready 0x000#12 0x3007#16 0x0000#16 true false 0x007#12 0x8000#16) =
    ⟨0x8000#16, false, true, 0x001#12, .none, false⟩ := by decide

/-! ### Control transfer (J1, J3, J8, J9, J10; J5 and J12 run from reset) -/

theorem test_jmp : seen (ready 0x000#12 0x4FFE#16 0x0000#16 true false 0x010#12 0x0000#16) =
    ⟨0x0000#16, true, false, 0xFFE#12, .none, false⟩ := by decide

theorem test_jge_taken_at_zero : seen (ready 0x001#12 0x5004#16 0x0000#16 true false 0x010#12 0x0000#16) =
    ⟨0x0000#16, true, false, 0x004#12, .none, false⟩ := by decide

theorem test_jge_not_taken_wraps : seen (ready 0xFFF#12 0x5020#16 0x8000#16 false true 0x010#12 0x0000#16) =
    ⟨0x8000#16, false, true, 0x000#12, .none, false⟩ := by decide

theorem test_jne_taken : seen (ready 0x004#12 0x6000#16 0x0002#16 false false 0x010#12 0x0000#16) =
    ⟨0x0002#16, false, false, 0x000#12, .none, false⟩ := by decide

theorem test_jne_not_taken : seen (ready 0x004#12 0x6000#16 0x0000#16 true false 0x010#12 0x0000#16) =
    ⟨0x0000#16, true, false, 0x005#12, .none, false⟩ := by decide

/-! ### System and undefined opcodes (T2, T3, T7, T9, U1 to U3) -/

theorem test_stp_wraps : seen (ready 0xFFF#12 0x7000#16 0x0000#16 true false 0x010#12 0x0000#16) =
    ⟨0x0000#16, true, false, 0x000#12, .halt, true⟩ := by decide

theorem test_stp_operand_ignored : seen (ready 0x001#12 0x7ABC#16 0x0000#16 true false 0x010#12 0x0000#16) =
    ⟨0x0000#16, true, false, 0x002#12, .halt, true⟩ := by decide

theorem test_swi_output : seen (ready 0x000#12 0x8000#16 0x8000#16 false true 0x010#12 0x0000#16) =
    ⟨0x8000#16, false, true, 0x001#12, .numberOutput (-32768), false⟩ := by decide

theorem test_swi_reserved : seen (ready 0x000#12 0x8001#16 0x0002#16 false false 0x010#12 0x0000#16) =
    ⟨0x0002#16, false, false, 0x001#12, .none, false⟩ := by decide

theorem test_undefined9 : seen (ready 0x000#12 0x9000#16 0x0005#16 false false 0x010#12 0x0000#16) =
    ⟨0x0005#16, false, false, 0x001#12, .none, false⟩ := by decide

theorem test_undefined10_stores_nothing :
    (after (ready 0x000#12 0xA123#16 0x0005#16 false false 0x123#12 0x0001#16)).mem =
      [(0, 0xA123#16), (0x123, 0x0001#16)] := by decide

theorem test_undefined15 : seen (ready 0x002#12 0xFFFF#16 0x0005#16 false false 0x010#12 0x0000#16) =
    ⟨0x0005#16, false, false, 0x003#12, .none, false⟩ := by decide

/-! ### The host driver (R163) -/

theorem test_print_negative : printLine (-5) = "-5\n" := by decide

/-! ### The assembler (E2, E4, E7 to E15, E17, E18) -/

theorem test_asm_case_and_comments :
    (assemble "LDA Val ; load\n\n; comment only\nSTP\nval DEFW 7".toList).toOption =
      some [(0, 0x0002#16), (1, 0x7000#16), (2, 0x0007#16)] := by decide

theorem test_asm_swi_masked : (assemble "swi 4096".toList).toOption = some [(0, 0x8000#16)] := by decide

theorem test_asm_defw_too_large : errorOf (assemble "defw 65536".toList) =
    some (.invalidLiteral "65536".toList) := by decide

theorem test_asm_defw_negative : errorOf (assemble "defw -1".toList) =
    some (.invalidLiteral "-1".toList) := by decide

theorem test_asm_number_is_a_name : errorOf (assemble "lda 5".toList) =
    some (.undefinedSymbol "5".toList) := by decide

theorem test_asm_equ_masked : (assemble "x equ 4097\nlda x".toList).toOption = some [(0, 0x0001#16)] := by decide

theorem test_asm_org_wraps : (assemble "org 4095\na defw 1\nb defw 2".toList).toOption =
    some [(0, 0x0002#16), (4095, 0x0001#16)] := by decide

theorem test_asm_bare_labels : (assemble "a\nb\nstp".toList).toOption = some [(0, 0x7000#16)] := by decide

theorem test_asm_malformed : errorOf (assemble "foo bar baz".toList) = some (.malformedLine 1) := by decide

theorem test_asm_duplicate : errorOf (assemble "a stp\na stp".toList) = some (.malformedLine 2) := by decide

theorem test_asm_later_line_wins : (assemble "defw 1\norg 0\ndefw 2".toList).toOption = some [(0, 0x0002#16)] := by
  decide

theorem test_asm_forward_reference : (assemble "jmp end\nend stp".toList).toOption =
    some [(0, 0x4001#16), (1, 0x7000#16)] := by decide

theorem test_asm_org_placed_modulo : (assemble "org 5000\nstp".toList).toOption = some [(904, 0x7000#16)] := by decide

/-! ### Witnesses: states and operands that meet the hypotheses of each statement -/

/-- A core about to run the word `w` at address 0xFFF. -/
def top (w : Word) : State := ready 0xFFF#12 w 0x8000#16 false true 0x010#12 0x0001#16

theorem witness_EveryWordEncodesExactlyOneInstruction : encode (.undefined15 0xFFF#12) = 0xFFFF#16 := by decide

theorem witness_AllFourOpcodeBitsSelect :
    (0x9123#16).getLsbD 15 = true ∧ (0x9123#16).extractLsb' 12 3 ≠ 0#3 := by decide

theorem witness_TableWordsDecodeAsTheWord :
    tableWordOk 16 0xFFFF = true ∧ decodeTableWord 16 0xFFFF = some (.undefined15 0xFFF#12) := by decide

theorem witness_ExactlyOneOpcodeRowCoversEachWord :
    opcodeTable.filter (fun r => r.covers 0x9123#16) = [⟨"undefined_9", 0x9000#16, 0xF000#16⟩] := by decide

theorem witness_StepRunsTheDecodedInstruction : (top 0x2010#16).halted = false := by decide

theorem witness_StepRefinesThePseudocode : (top 0x3010#16).halted = false := by decide

theorem witness_HaltedCoreTakesNoStep :
    (after (top 0x7000#16)).halted = true ∧ step (top 0x7000#16) = .next (after (top 0x7000#16)) := ⟨by decide, rfl⟩

theorem witness_OnlyTheHaltedCoreHasNoStep : step (after (top 0x7FFF#16)) = .fault .halted := rfl

theorem witness_ProgramCounter_at_top :
    (top 0x0010#16).pc = 0xFFF#12 ∧ step (top 0x0010#16) = .next (after (top 0x0010#16)) ∧
      (after (top 0x0010#16)).pc = 0x000#12 := ⟨by decide, rfl, by decide⟩

theorem witness_ProgramCounter_jmp :
    decode ((top 0x4FFF#16).mem.read (top 0x4FFF#16).pc) = .jmp 0xFFF#12 ∧
      step (top 0x4FFF#16) = .next (after (top 0x4FFF#16)) := ⟨by decide, rfl⟩

theorem witness_ProgramCounter_jge_not_taken :
    decode ((top 0x5FFF#16).mem.read (top 0x5FFF#16).pc) = .jge 0xFFF#12 ∧ (top 0x5FFF#16).N = true ∧
      step (top 0x5FFF#16) = .next (after (top 0x5FFF#16)) := ⟨by decide, by decide, rfl⟩

theorem witness_ProgramCounter_jne_taken :
    decode ((top 0x6000#16).mem.read (top 0x6000#16).pc) = .jne 0x000#12 ∧ (top 0x6000#16).Z = false ∧
      step (top 0x6000#16) = .next (after (top 0x6000#16)) := ⟨by decide, by decide, rfl⟩

theorem witness_InstructionRegisterHoldsTheFetchedWord :
    step (top 0x1FFF#16) = .next (after (top 0x1FFF#16)) ∧ (after (top 0x1FFF#16)).ir = 0x1FFF#16 ∧
      exec (.sta 0xFFF#12) State.reset = .next (State.reset.memWrite 0xFFF#12 0x0000#16) := ⟨rfl, by decide, rfl⟩

theorem witness_SignalOfEveryStep_halt :
    step (top 0x7FFF#16) = .next (after (top 0x7FFF#16)) ∧ (after (top 0x7FFF#16)).signal = .halt := ⟨rfl, by decide⟩

theorem witness_SignalOfEveryStep_output :
    step (top 0x8000#16) = .next (after (top 0x8000#16)) ∧
      (after (top 0x8000#16)).signal = .numberOutput (-32768) := ⟨rfl, by decide⟩

theorem witness_SignalOfEveryStep_none :
    step (top 0x8FFF#16) = .next (after (top 0x8FFF#16)) ∧ (after (top 0x8FFF#16)).signal = .none := ⟨rfl, by decide⟩

theorem witness_FlagsFollowOnlyLdaAddSub_updated :
    decode ((top 0x0FFF#16).mem.read (top 0x0FFF#16).pc) = .lda 0xFFF#12 ∧
      step (top 0x0FFF#16) = .next (after (top 0x0FFF#16)) := ⟨by decide, rfl⟩

theorem witness_FlagsFollowOnlyLdaAddSub_kept :
    decode ((top 0x1FFF#16).mem.read (top 0x1FFF#16).pc) = .sta 0xFFF#12 ∧
      step (top 0x1FFF#16) = .next (after (top 0x1FFF#16)) := ⟨by decide, rfl⟩

theorem witness_OnlyStaChangesMemoryAndOneWord :
    decode ((top 0x1000#16).mem.read (top 0x1000#16).pc) = .sta 0x000#12 ∧
      step (top 0x1000#16) = .next (after (top 0x1000#16)) ∧ (0x010#12 : Addr) ≠ dataAddress 0x000#12 ∧
      decode ((top 0x9000#16).mem.read (top 0x9000#16).pc) = .undefined9 0x000#12 ∧
      step (top 0x9000#16) = .next (after (top 0x9000#16)) := ⟨by decide, rfl, by decide, by decide, rfl⟩

theorem witness_ExecuteReadsOnlyTheOperandWord :
    Memory.read [(16, 1#16), (17, 5#16)] (dataAddress (Instr.add 0x010#12).operand) =
        (top 0x2010#16).mem.read (dataAddress (Instr.add 0x010#12).operand) ∧
      exec (.add 0x010#12) (top 0x2010#16) = .next ((top 0x2010#16).writeAcc 0x8001#16) ∧
      exec (.add 0x010#12) { (top 0x2010#16) with mem := [(16, 1#16), (17, 5#16)] } =
        .next ({ (top 0x2010#16) with mem := [(16, 1#16), (17, 5#16)] }.writeAcc 0x8001#16) := ⟨by decide, rfl, rfl⟩

theorem witness_StepKeepsFlagsInAgreement :
    FlagsAgree (top 0x3FFF#16) ∧ step (top 0x3FFF#16) = .next (after (top 0x3FFF#16)) := by
  refine ⟨?_, rfl⟩
  unfold FlagsAgree
  decide

theorem witness_StepKeepsMemoryCanonical :
    (top 0x1FFF#16).mem.wf = true ∧ step (top 0x1FFF#16) = .next (after (top 0x1FFF#16)) := ⟨by decide, rfl⟩

/-- An image with `lda 1` at address 0, and at address 1 the word 0x9000, read as data and then run as a no-op. -/
def loadsNegative : Image := fun a => if a = 0x000#12 then 0x0001#16 else if a = 0x001#12 then 0x9000#16 else 0x0000#16

/-- Two steps from reset, the first of which writes the accumulator and the flags. -/
theorem witness_ReachableFlagsAgreeWithAccumulator :
    Reachable loadsNegative (after (after (State.resetWith loadsNegative))) ∧
      (after (after (State.resetWith loadsNegative))).acc = 0x9000#16 := ⟨⟨2, rfl⟩, rfl⟩

theorem witness_RunsStopOnlyInTheHaltedState :
    (top 0x7000#16).halted = false ∧ Host.Core.run core 2 (top 0x7000#16) = .fault .halted := ⟨by decide, rfl⟩

theorem witness_SelfJumpRunsForever :
    (top 0x4FFF#16).halted = false ∧
      decode ((top 0x4FFF#16).mem.read (top 0x4FFF#16).pc) = .jmp (top 0x4FFF#16).pc := by decide

theorem witness_CanonicalMemoriesWithEqualReadsAreEqual :
    Memory.wf [(0, 1#16), (4095, 2#16)] = true ∧
      Memory.wf ((Memory.write [] 0xFFF#12 2#16).write 0x000#12 1#16) = true ∧
      ∀ a : Addr, Memory.read [(0, 1#16), (4095, 2#16)] a =
        ((Memory.write [] 0xFFF#12 2#16).write 0x000#12 1#16).read a := ⟨by decide, by decide, fun _ => rfl⟩

/-- A store to the next address (`sta 0x000` at 0xFFF), and a later state in which another word has been written since. -/
theorem witness_StoreIsSeenByTheNextFetch :
    decode ((top 0x1000#16).mem.read (top 0x1000#16).pc) = .sta 0x000#12 ∧
      step (top 0x1000#16) = .next (after (top 0x1000#16)) ∧ (0x000#12 : Addr) = (top 0x1000#16).pc + 1 ∧
      ((after (top 0x1000#16)).memWrite 0xFFF#12 0x7000#16).halted = false ∧
      ((after (top 0x1000#16)).memWrite 0xFFF#12 0x7000#16).pc = 0x000#12 ∧
      ((after (top 0x1000#16)).memWrite 0xFFF#12 0x7000#16).mem ≠ (after (top 0x1000#16)).mem ∧
      ((after (top 0x1000#16)).memWrite 0xFFF#12 0x7000#16).mem.read 0x000#12 =
        (after (top 0x1000#16)).mem.read 0x000#12 :=
  ⟨by decide, rfl, by decide, by decide, by decide, by decide, by decide⟩

/-- The last two of `n + 2` bytes. -/
theorem last_two_bytes (n : Nat) (x a b : Byte) :
    (List.replicate n x ++ [a, b])[n]? = some a ∧ (List.replicate n x ++ [a, b])[n + 1]? = some b := by
  simp

/-- 8192 bytes whose last two, at address 0xFFF, are 0x12 and 0x34. -/
def imageBytes : List Byte := List.replicate 8190 0x00#8 ++ [0x12#8, 0x34#8]

theorem witness_EveryImageHasASerialisedForm (order : Config.ByteOrder) :
    (∃ image, Image.ofBytes order imageBytes = some image) ∧
      imageBytes[2 * (0xFFF#12 : Addr).toNat]? = some 0x12#8 ∧
      imageBytes[2 * (0xFFF#12 : Addr).toNat + 1]? = some 0x34#8 := by
  have h : imageBytes.length = 2 * Config.memWords := by
    rw [imageBytes, List.length_append, List.length_replicate]
    rfl
  exact ⟨⟨_, if_pos h⟩, last_two_bytes 8190 _ _ _⟩

theorem test_wordOfBytes_orders :
    wordOfBytes .bigEndian 0x12#8 0x34#8 = 0x1234#16 ∧ wordOfBytes .littleEndian 0x12#8 0x34#8 = 0x3412#16 := by decide

theorem witness_JumpsHaveNoDelaySlot :
    decode ((top 0x4000#16).mem.read (top 0x4000#16).pc) = .jmp 0x000#12 ∧
      step (top 0x4000#16) = .next (after (top 0x4000#16)) ∧
      decode ((top 0x5000#16).mem.read (top 0x5000#16).pc) = .jge 0x000#12 ∧ (top 0x5000#16).N = true ∧
      step (top 0x5000#16) = .next (after (top 0x5000#16)) ∧
      decode ((top 0x6FFF#16).mem.read (top 0x6FFF#16).pc) = .jne 0xFFF#12 ∧ (top 0x6FFF#16).Z = false ∧
      step (top 0x6FFF#16) = .next (after (top 0x6FFF#16)) :=
  ⟨by decide, rfl, by decide, by decide, rfl, by decide, by decide, rfl⟩

/-- The conditional jumps with the other value of each flag, at address 0xFFF with the accumulator 0. -/
theorem witness_conditional_jumps_other_way :
    let s := ready 0xFFF#12 0x5FFF#16 0x0000#16 true false 0x010#12 0x0001#16
    let u := ready 0xFFF#12 0x6000#16 0x0000#16 true false 0x010#12 0x0001#16
    decode (s.mem.read s.pc) = .jge 0xFFF#12 ∧ s.N = false ∧ step s = .next (after s) ∧ (after s).pc = 0xFFF#12 ∧
      decode (u.mem.read u.pc) = .jne 0x000#12 ∧ u.Z = true ∧ step u = .next (after u) ∧ (after u).pc = 0x000#12 :=
  ⟨by decide, by decide, rfl, by decide, by decide, by decide, rfl, by decide⟩

theorem witness_StaStoresTheAccumulator : (0xFFE#12 : Addr) ≠ dataAddress 0xFFF#12 := by decide

theorem witness_JgeAndJne_conditions :
    State.reset.N = false ∧ State.reset.Z = true ∧ (top 0x5000#16).N = true ∧ (top 0x5000#16).Z = false := by decide

theorem witness_SignedArithmeticIsExactOrWraps :
    FitsSigned ((0x7FFE#16).toInt + (0x0001#16).toInt) ∧ FitsSigned ((0x8001#16).toInt - (0x0001#16).toInt) := by
  unfold FitsSigned
  decide

theorem witness_SwiOutputsOnlyForCodeZero :
    (0x001#12 : Addr) ≠ 0x000#12 ∧ decode ((top 0x8001#16).mem.read (top 0x8001#16).pc) = .swi 0x001#12 ∧
      step (top 0x8001#16) = .next (after (top 0x8001#16)) := ⟨by decide, by decide, rfl⟩

theorem witness_UndefinedOpcodesAreNoOps :
    (top 0x9000#16).halted = false ∧ 9 ≤ ((top 0x9000#16).mem.read (top 0x9000#16).pc).toNat / 4096 := by decide

theorem witness_DriverEndsExactlyAtHalt :
    (top 0x7000#16).halted = false ∧ (drive 1 (top 0x7000#16)).status = .ended ∧
      (top 0x8000#16).halted = false ∧ (drive 1 (top 0x8000#16)).status = .running ∧
      (drive 1 (top 0x8000#16)).outputs = [-32768] := by decide

theorem witness_EndedDriverRunIsFinal : (drive 1 (top 0x7FFF#16)).status = .ended ∧ 1 ≤ 2 := by decide

theorem witness_LinePreparationDropsCommentsAndSpace : isSpace ' ' = true ∧ isSpace '\t' = true := by decide

theorem witness_AssembledImageHoldsTheLastLineOfEachAddress :
    assemble "org 4095\nstp".toList = .ok [(4095, 0x7000#16)] := rfl

theorem witness_NamedOperandBecomesTheOperandField :
    Symbols.value? [("x".toList, 4096)] "x".toList = some 4096 ∧ Symbols.value? [] "x".toList = none := by decide

theorem witness_SwiLiteralIsMaskedAndDefwIsNot :
    literal? "65535".toList = some 65535 ∧ literal? "0".toList = some 0 ∧ literal? "65536".toList = none := by decide

theorem witness_EquConstantIsTheAddressItself :
    isWordHead "x".toList = false ∧ "x".toList ≠ "org".toList ∧ "x".toList ≠ "equ".toList ∧
      literal? "4095".toList = some 4095 ∧ nameOp? "jne".toList = some .jne := by decide

theorem witness_PassOneNeverBindsANameTwice :
    (([] : Symbols).map Prod.fst).Nodup ∧
      pass1 0 [] [(1, ["a".toList]), (2, ["b".toList])] =
        .ok ([("b".toList, 0), ("a".toList, 0)], [.label "a".toList none, .label "b".toList none]) :=
  ⟨List.nodup_nil, rfl⟩

theorem witness_AssembledInstructionsHaveAMnemonic :
    (∀ x, WordStmt.swi "4095".toList ≠ .defw x) ∧
      (WordStmt.swi "4095".toList).encode [] = .ok 0x8FFF#16 := ⟨fun _ h => (by cases h), rfl⟩

theorem witness_LabelKeepsTheAddressOfItsLine :
    parseLine 1 ["a".toList] = .ok (.label "a".toList none) ∧
      pass1 4096 [] [(1, ["a".toList]), (2, ["org".toList, "7".toList])] =
        .ok ([("a".toList, 0)], [.label "a".toList none, .org 7]) := ⟨rfl, rfl⟩

end Sys2Proof.Tests
end

section
/-! PROOFS. The step as a whole (00_scope.md): which instruction a step runs, that it refines the pseudocode of R14, and
the signal it returns. -/

namespace Sys2Proof.Machine

/-! ### The fields of a word, as numbers (R60) -/

/-- `ir[15:12]` as the pseudocode takes it from the number. -/
theorem opcode_decode_toNat (w : Word) : (decode w).opcode.toNat = w.toNat / 4096 % 16 := by
  rw [decode, (decodeFields_fields _ _).1, opField, BitVec.extractLsb'_toNat, Nat.shiftRight_eq_div_pow]

/-- `ir[11:0]` as the pseudocode takes it from the number. -/
theorem operand_decode_toNat (w : Word) : (decode w).operand.toNat = w.toNat % 4096 := by
  rw [decode, (decodeFields_fields _ _).2, operandField, BitVec.extractLsb'_toNat, Nat.shiftRight_zero]

/-! ### Each operation of the machine commutes with the reading as numbers -/

/-- `MemRead` reads the same word on both sides. -/
theorem toPseudo_memRead (s : State) (a : Addr) :
    s.toPseudo.memRead a.toNat = (s.mem.read a).toNat := by
  have ha : a.toNat < 4096 := a.isLt
  simp [PseudoState.memRead, State.toPseudo, Nat.mod_eq_of_lt ha, ha]

theorem toPseudo_fetch (s : State) : s.fetch.toPseudo = s.toPseudo.fetch := by
  have hir : s.toPseudo.memRead s.toPseudo.pc = (s.mem.read s.pc).toNat := toPseudo_memRead s s.pc
  rw [PseudoState.fetch, hir]
  simp [State.toPseudo, BitVec.toNat_add]

/-- The sign of R24 is the upper half of the words. -/
theorem negativeFlag_eq_decide (v : Word) : negativeFlag v = decide (32768 ≤ v.toNat) := by
  rw [negativeFlag_eq_bit, ← BitVec.msb_eq_getLsbD_last v, BitVec.msb_eq_decide]

theorem zeroFlag_eq_decide (v : Word) : zeroFlag v = decide (v.toNat = 0) := by
  rw [Bool.eq_iff_iff, zeroFlag_iff, decide_eq_true_iff, ← BitVec.toNat_inj]
  rfl

theorem toPseudo_writeAcc (s : State) (v : Word) : (s.writeAcc v).toPseudo = s.toPseudo.loadAcc v.toNat := by
  simp [State.toPseudo, PseudoState.loadAcc, zeroFlag_eq_decide, negativeFlag_eq_decide]

/-- A store changes the same word of the array on both sides, and no other of the 4096. -/
theorem toPseudo_memWrite (s : State) (a : Addr) (v : Word) :
    (s.memWrite a v).toPseudo = s.toPseudo.memWrite a.toNat v.toNat := by
  have ha : a.toNat < 4096 := a.isLt
  simp only [State.toPseudo, PseudoState.memWrite, State.memWrite, PseudoState.mk.injEq, true_and, and_true]
  funext k
  rw [Nat.mod_eq_of_lt ha]
  by_cases hk : k < 4096
  · have hak : a = BitVec.ofNat 12 k ↔ k = a.toNat := by
      rw [← BitVec.toNat_inj, BitVec.toNat_ofNat, Nat.mod_eq_of_lt hk, eq_comm]
    simp only [hk, if_true, Memory.read_write, hak]
    split <;> rfl
  · simp only [hk, if_false]
    rw [if_neg (by omega)]

/-- A jump on a clear flag, as R121 and R122 write it. -/
theorem toPseudo_jumpIf_not (s : State) (flag : Bool) (a : Addr) :
    (s.jumpIf (!flag) a).toPseudo = if flag = false then { s.toPseudo with pc := a.toNat } else s.toPseudo := by
  cases flag <;> rfl

theorem toPseudo_signedAcc (s : State) : s.toPseudo.signedAcc = sint16 s.acc := by
  rw [sint16, ← negativeFlag_eq_bit, negativeFlag_eq_decide]
  by_cases h : s.acc.toNat < 32768
  · rw [PseudoState.signedAcc, State.toPseudo, if_pos h, decide_eq_false (by omega)]; rfl
  · rw [PseudoState.signedAcc, State.toPseudo, if_neg h, decide_eq_true (by omega)]; rfl

/-- What `swi` leaves, as R132 writes it. -/
theorem toPseudo_swi (s : State) (a : Addr) :
    (if isOutputCode a then s.emit (.numberOutput (sint16 s.acc)) else s).toPseudo =
      if a.toNat = 0 then { s.toPseudo with signal := .numberOutput s.toPseudo.signedAcc } else s.toPseudo := by
  rw [toPseudo_signedAcc]
  by_cases ha : a = 0x000#12
  · subst ha; rfl
  · have hn : a.toNat ≠ 0 := fun h => ha (BitVec.eq_of_toNat_eq h)
    simp [isOutputCode, ha, hn]

/-- `aluSub` as R111 writes it on numbers, the difference taken before the modulus. -/
theorem aluSub_toNat (x y : Word) : (aluSub x y).toNat = (((x.toNat : Int) - y.toNat) % 65536).toNat := by
  have hx := x.isLt
  have hy := y.isLt
  rw [aluSub, BitVec.toNat_sub]
  omega

/-! ### The execute phase, then the step -/

/-- Executing an instruction is the `case op of` of R14 at its opcode and operand. -/
theorem exec_refines_execute (i : Instr) (s : State) :
    ∃ t, exec i s = .next t ∧ t.toPseudo = s.toPseudo.execute i.opcode.toNat i.operand.toNat := by
  cases i with
  | lda a =>
    refine ⟨_, rfl, ?_⟩
    rw [toPseudo_writeAcc, dataOperand_eq, ← toPseudo_memRead]
    rfl
  | sta a => exact ⟨_, rfl, toPseudo_memWrite s a s.acc⟩
  | add a =>
    refine ⟨_, rfl, ?_⟩
    rw [toPseudo_writeAcc, aluAdd_toNat, dataOperand_eq, ← toPseudo_memRead]
    rfl
  | sub a =>
    refine ⟨_, rfl, ?_⟩
    rw [toPseudo_writeAcc, aluSub_toNat, dataOperand_eq, ← toPseudo_memRead]
    rfl
  | jmp a => exact ⟨_, rfl, rfl⟩
  | jge a => exact ⟨_, rfl, toPseudo_jumpIf_not s s.N a⟩
  | jne a => exact ⟨_, rfl, toPseudo_jumpIf_not s s.Z a⟩
  | stp x => exact ⟨_, rfl, rfl⟩
  | swi a => exact ⟨_, rfl, toPseudo_swi s a⟩
  | undefined9 x => exact ⟨_, rfl, rfl⟩
  | undefined10 x => exact ⟨_, rfl, rfl⟩
  | undefined11 x => exact ⟨_, rfl, rfl⟩
  | undefined12 x => exact ⟨_, rfl, rfl⟩
  | undefined13 x => exact ⟨_, rfl, rfl⟩
  | undefined14 x => exact ⟨_, rfl, rfl⟩
  | undefined15 x => exact ⟨_, rfl, rfl⟩

/-- Settles O9: the fetch and the execute phase each commute with the reading as numbers, and the fields of the fetched
word are the `op` and `a` of the pseudocode. -/
theorem stepRefinesThePseudocode : Obligations.StepRefinesThePseudocode := by
  intro s hs
  obtain ⟨t, ht, href⟩ := exec_refines_execute s.current s.fetch
  refine ⟨t, (step_running hs).trans ht, ?_⟩
  rw [pseudoStep, ← toPseudo_fetch, href, State.current, opcode_decode_toNat, operand_decode_toNat]
  rfl

/-! ### The signal of a step (R10) -/

/-- The signal an instruction leaves, and which instructions leave which. -/
theorem Effect.signal_cases {i : Instr} {s t : State} (h : Effect i s t) :
    ((∃ x, i = .stp x) ∧ t.signal = .halt) ∨
    (i = .swi 0x000#12 ∧ t.signal = .numberOutput s.acc.toInt) ∨
    ((∀ x, i ≠ .stp x) ∧ i ≠ .swi 0x000#12 ∧ t.signal = s.signal) := by
  cases h with
  | writeAcc v hi => exact .inr (.inr ⟨(by rintro x rfl; cases hi), (by rintro rfl; cases hi), rfl⟩)
  | store a hi => subst hi; exact .inr (.inr ⟨nofun, nofun, rfl⟩)
  | jump taken a hi =>
    rw [State.jumpIf_signal]
    obtain ⟨rfl, -⟩ | ⟨rfl, -⟩ | ⟨rfl, -⟩ := hi <;> exact .inr (.inr ⟨nofun, nofun, rfl⟩)
  | stop x hi => exact .inl ⟨⟨x, hi⟩, rfl⟩
  | output hi => exact .inr (.inl ⟨hi, congrArg _ (sint16_eq_toInt s.acc)⟩)
  | reserved a hi ha => subst hi; exact .inr (.inr ⟨nofun, by simpa using ha, rfl⟩)
  | undefined hi => exact .inr (.inr ⟨(by rintro x rfl; cases hi), (by rintro rfl; cases hi), rfl⟩)

/-- Settles O14: the fetch leaves the signal `None`, and the instruction's effect changes it for `stp` and `swi 0`
only. -/
theorem signalOfEveryStep : Obligations.SignalOfEveryStep := by
  intro s t h
  obtain ⟨-, -, heff⟩ := step_next h
  rw [← State.current]
  obtain ⟨⟨x, hi⟩, hsig⟩ | ⟨hi, hsig⟩ | ⟨hstp, hswi, hsig⟩ := heff.signal_cases
  · simp [hi, hsig]
  · simp [hi, hsig, eq_comm]
  · simp [hstp, hswi, hsig]

/-! ### The fetched state (R14) -/

/-- `pc + 1` in 12 bits is the successor modulo 4096 of R21. -/
theorem pc_add_one_eq_ofNat (p : Addr) : p + 1 = BitVec.ofNat 12 ((p.toNat + 1) % 4096) :=
  BitVec.eq_of_toNat_eq (by simp [BitVec.toNat_add])

/-- Settles O8: the state of the execute phase is the one the fetch leaves, field by field. -/
theorem stepRunsTheDecodedInstruction : Obligations.StepRunsTheDecodedInstruction := by
  intro s hs
  rw [step_running hs, ← pc_add_one_eq_ofNat]
  rfl

end Sys2Proof.Machine
end

section
/-! PROOFS. What a step does to the state of 10_state.md, field by field: the accumulator and its flags, the halted
latch, the program counter and the instruction register; then what every run from reset keeps. -/

namespace Sys2Proof.Machine

/-! ### The accumulator and the flags (R24, R25, R26, R112) -/

/-- The instructions that write the accumulator, as R112 lists them. -/
theorem writesAcc_iff (i : Instr) : i.writesAcc = true ↔ ∃ a, i = .lda a ∨ i = .add a ∨ i = .sub a := by
  cases i <;> simp [Instr.writesAcc]

/-- The two forms R24 gives the sign of a word. -/
theorem bit15_iff_toInt_neg (w : Word) : w.getLsbD 15 = true ↔ w.toInt < 0 := by
  rw [← negativeFlag_eq_bit, negativeFlag, sint16_eq_toInt, decide_eq_true_iff]

/-- An instruction either writes the accumulator and recomputes the flags from it, or leaves all three. -/
theorem Effect.acc_cases {i : Instr} {s t : State} (h : Effect i s t) :
    (i.writesAcc = true ∧ FlagsAgree t) ∨
    (i.writesAcc = false ∧ t.acc = s.acc ∧ t.Z = s.Z ∧ t.N = s.N) := by
  cases h with
  | writeAcc v hi => exact .inl ⟨hi, flagsAgree_writeAcc s v⟩
  | store a hi => subst hi; exact .inr ⟨rfl, rfl, rfl, rfl⟩
  | jump taken a hi =>
    obtain ⟨rfl, -⟩ | ⟨rfl, -⟩ | ⟨rfl, -⟩ := hi <;> exact .inr ⟨rfl, by simp⟩
  | stop x hi => subst hi; exact .inr ⟨rfl, rfl, rfl, rfl⟩
  | output hi => subst hi; exact .inr ⟨rfl, rfl, rfl, rfl⟩
  | reserved a hi ha => subst hi; exact .inr ⟨rfl, rfl, rfl, rfl⟩
  | undefined hi =>
    refine .inr ⟨?_, rfl, rfl, rfl⟩
    rw [← Bool.not_eq_true, writesAcc_iff]
    rintro ⟨a, rfl | rfl | rfl⟩ <;> cases hi

theorem Effect.keeps_flagsAgree {i : Instr} {s t : State} (h : Effect i s t) (hs : FlagsAgree s) :
    FlagsAgree t := by
  obtain ⟨-, ht⟩ | ⟨-, hacc, hZ, hN⟩ := h.acc_cases
  · exact ht
  · exact (flagsAgree_congr hacc hZ hN).mpr hs

/-- Settles O18: the fetch touches neither the accumulator nor the flags, and every effect of an instruction keeps them
in agreement. -/
theorem stepKeepsFlagsInAgreement : Obligations.StepKeepsFlagsInAgreement := by
  intro s t hs h
  obtain ⟨-, -, heff⟩ := step_next h
  exact heff.keeps_flagsAgree ((flagsAgree_congr rfl rfl rfl).mpr hs)

/-- Settles O15: the instruction of the step writes the accumulator with its flags, or leaves what the fetch left. -/
theorem flagsFollowOnlyLdaAddSub : Obligations.FlagsFollowOnlyLdaAddSub := by
  intro s t h
  obtain ⟨-, -, heff⟩ := step_next h
  rw [← State.current]
  obtain ⟨hw, hZ, hN⟩ | ⟨hw, hkeep⟩ := heff.acc_cases
  · refine ⟨fun _ => ⟨hZ, by rw [hN, bit15_iff_toInt_neg], hN⟩, fun hno => ?_⟩
    obtain ⟨a, ha⟩ := (writesAcc_iff _).mp hw
    obtain ⟨hlda, hadd, hsub⟩ := hno a
    exact absurd ha (by simp [hlda, hadd, hsub])
  · refine ⟨fun hyes => ?_, fun _ => hkeep⟩
    exact absurd ((writesAcc_iff _).mpr hyes) (by simp [hw])

/-! ### The halted latch (R27, R131) -/

/-- `stp` alone sets the latch, and no instruction clears it. -/
theorem Effect.halted_iff {i : Instr} {s t : State} (h : Effect i s t) :
    t.halted = true ↔ s.halted = true ∨ ∃ x, i = .stp x := by
  cases h with
  | writeAcc v hi =>
    have hno : ∀ x, i ≠ .stp x := by rintro x rfl; cases hi
    simp [hno]
  | store a hi => simp [hi]
  | jump taken a hi => obtain ⟨rfl, -⟩ | ⟨rfl, -⟩ | ⟨rfl, -⟩ := hi <;> simp
  | stop x hi => simp [hi]
  | output hi => simp [hi]
  | reserved a hi ha => simp [hi]
  | undefined hi =>
    have hno : ∀ x, i ≠ .stp x := by rintro x rfl; cases hi
    simp [hno]

/-- Settles O10: a step begins with the latch clear, so its instruction, if it is `stp`, is what sets it. -/
theorem haltedCoreTakesNoStep : Obligations.HaltedCoreTakesNoStep := by
  refine ⟨fun x s => ⟨_, rfl, rfl⟩, fun s => step_halted, fun s t h => ?_, fun image => rfl, rfl⟩
  obtain ⟨hrun, -, heff⟩ := step_next h
  refine ⟨hrun, ?_⟩
  rw [heff.halted_iff, State.fetch_halted, hrun, State.current]
  simp

/-! ### The program counter (R21) -/

/-- Where an instruction leaves `pc`: at its operand for a jump that is taken, where the fetch left it otherwise. -/
theorem Effect.pc_cases {i : Instr} {s t : State} (h : Effect i s t) :
    (∃ a, i = .jmp a ∧ t.pc = a) ∨
    (∃ a, i = .jge a ∧ t.pc = if s.N = false then a else s.pc) ∨
    (∃ a, i = .jne a ∧ t.pc = if s.Z = false then a else s.pc) ∨
    ((∀ a, i ≠ .jmp a) ∧ (∀ a, i ≠ .jge a) ∧ (∀ a, i ≠ .jne a) ∧ t.pc = s.pc) := by
  cases h with
  | jump taken a hi =>
    obtain ⟨rfl, rfl⟩ | ⟨rfl, rfl⟩ | ⟨rfl, rfl⟩ := hi
    · exact .inl ⟨a, rfl, rfl⟩
    · exact .inr (.inl ⟨a, rfl, by simp⟩)
    · exact .inr (.inr (.inl ⟨a, rfl, by simp⟩))
  | writeAcc v hi =>
    obtain ⟨a, rfl | rfl | rfl⟩ := (writesAcc_iff i).mp hi <;> simp
  | store a hi => simp [hi]
  | stop x hi => simp [hi]
  | output hi => simp [hi]
  | reserved a hi ha => simp [hi]
  | undefined hi =>
    refine .inr (.inr (.inr ⟨?_, ?_, ?_, rfl⟩)) <;> (rintro a rfl; cases hi)

/-- The fetch advances `pc` by one modulo 4096. -/
theorem fetch_pc_toNat (s : State) : s.fetch.pc.toNat = (s.pc.toNat + 1) % 4096 := by
  rw [State.fetch_pc, BitVec.toNat_add]
  rfl

/-- Settles O12: the fetch leaves `pc` at the next address, and only a taken jump of the execute phase moves it from
there. -/
theorem programCounterAdvancesOrJumps : Obligations.ProgramCounterAdvancesOrJumps := by
  refine ⟨fun s => ⟨rfl, fetch_pc_toNat s, fun hp => ?_⟩, fun s t h => ?_, fun s p hs => ?_⟩
  · rw [State.fetch_pc, hp]; rfl
  · obtain ⟨-, -, heff⟩ := step_next h
    rw [← State.current]
    obtain ⟨b, hi, hpc⟩ | ⟨b, hi, hpc⟩ | ⟨b, hi, hpc⟩ | ⟨hjmp, hjge, hjne, hpc⟩ := heff.pc_cases
    · simp [hi, hpc]
    · rw [State.fetch_N, State.fetch_pc] at hpc
      simp [hi, hpc]
    · rw [State.fetch_Z, State.fetch_pc] at hpc
      simp [hi, hpc]
    · refine ⟨fun a hi => absurd hi (hjmp a), fun a hi => absurd hi (hjge a),
        fun a hi => absurd hi (hjne a), fun _ => ?_⟩
      rw [hpc, fetch_pc_toNat]
  · obtain ⟨hh, -⟩ | ⟨-, hstep⟩ := step_cases { s with pc := p }
    · exact absurd hh (by simp [hs])
    · exact hstep

/-! ### The instruction register (R22) -/

/-- No instruction writes `ir`. -/
theorem Effect.ir_eq {i : Instr} {s t : State} (h : Effect i s t) : t.ir = s.ir := by
  cases h with
  | jump taken a hi => exact State.jumpIf_ir s taken a
  | writeAcc v hi => rfl
  | store a hi => rfl
  | stop x hi => rfl
  | output hi => rfl
  | reserved a hi ha => rfl
  | undefined hi => rfl

theorem jumpIf_withIr (s : State) (taken : Bool) (a : Addr) (w : Word) :
    State.jumpIf { s with ir := w } taken a = { s.jumpIf taken a with ir := w } := by
  cases taken <;> rfl

/-- No instruction reads `ir`: another word there changes nothing else of what the instruction leaves. -/
theorem exec_withIr {i : Instr} {s t : State} (h : exec i s = .next t) (w : Word) :
    exec i { s with ir := w } = .next { t with ir := w } := by
  cases i with
  | jge a => cases h; exact congrArg _ (jumpIf_withIr s (!s.N) a w)
  | jne a => cases h; exact congrArg _ (jumpIf_withIr s (!s.Z) a w)
  | swi a =>
    cases h
    rw [exec, execSwi]
    split <;> rfl
  | _ => cases h; rfl

/-- The fetch writes `ir` without reading it. -/
theorem fetch_withIr (s : State) (w : Word) : State.fetch { s with ir := w } = s.fetch := rfl

/-- Settles O13: the fetch overwrites `ir` with the word at `pc`, and the execute phase neither writes nor reads it. -/
theorem instructionRegisterHoldsTheFetchedWord : Obligations.InstructionRegisterHoldsTheFetchedWord := by
  refine ⟨fun s t h => ?_, fun s w => ?_, fun i s t w h => ?_, fun image => rfl⟩
  · obtain ⟨-, -, heff⟩ := step_next h
    rw [heff.ir_eq, State.fetch_ir]
  · rw [step, step, fetch_withIr]
  · exact ⟨(effect_of_exec h).ir_eq, exec_withIr h w⟩

/-! ### What every run keeps -/

/-- What every step keeps, every run keeps. -/
theorem run_keeps {P : State → Prop} (hstep : ∀ s t, P s → step s = .next t → P t) (k : Nat) {s t : State}
    (hs : P s) (h : Host.Core.run core k s = .next t) : P t := by
  induction k generalizing s with
  | zero => cases h; exact hs
  | succ k ih =>
    obtain ⟨hh, -⟩ | ⟨-, u, hu⟩ := step_cases s
    · rw [run_halted hh] at h; cases h
    · rw [run_succ hu] at h
      exact ih (hstep s u hs hu) h

/-- What holds at the reset with an image and every step keeps holds in every state reachable from it. -/
theorem Reachable.of_invariant {P : State → Prop} {image : Image} {s : State} (hr : Reachable image s)
    (hreset : P (State.resetWith image)) (hstep : ∀ s t, P s → step s = .next t → P t) : P s := by
  obtain ⟨k, hk⟩ := hr
  exact run_keeps hstep k hreset hk

/-- Reset clears the accumulator, sets `Z` and clears `N` (R170), whatever the image. -/
theorem flagsAgree_resetWith (image : Image) : FlagsAgree (State.resetWith image) := by
  simp [FlagsAgree, State.resetWith, State.reset]

/-- Settles O21: the flags agree at reset, and every step keeps them in agreement. -/
theorem reachableFlagsAgreeWithAccumulator : Obligations.ReachableFlagsAgreeWithAccumulator := by
  intro image s hr
  exact hr.of_invariant (P := FlagsAgree) (flagsAgree_resetWith image) stepKeepsFlagsInAgreement

end Sys2Proof.Machine
end

section
/-! PROOFS. The memory array (20_memory.md): the canonical form, what a step and an instruction do to memory and read
of it, a store as the next fetch sees it, and the serialised form of an image. -/

namespace Sys2Proof.Machine

/-! ### What an instruction does to memory (R46) -/

/-- Only `sta` writes memory, and it writes the accumulator at its operand. -/
theorem Effect.mem_cases {i : Instr} {s t : State} (h : Effect i s t) :
    (∃ a, i = .sta a ∧ t.mem = s.mem.write a s.acc) ∨ ((∀ a, i ≠ .sta a) ∧ t.mem = s.mem) := by
  cases h with
  | store a hi => exact .inl ⟨a, hi, rfl⟩
  | writeAcc v hi => exact .inr ⟨(by rintro a rfl; cases hi), rfl⟩
  | jump taken a hi =>
    rw [State.jumpIf_mem]
    obtain ⟨rfl, -⟩ | ⟨rfl, -⟩ | ⟨rfl, -⟩ := hi <;> exact .inr ⟨nofun, rfl⟩
  | stop x hi => subst hi; exact .inr ⟨nofun, rfl⟩
  | output hi => subst hi; exact .inr ⟨nofun, rfl⟩
  | reserved a hi ha => subst hi; exact .inr ⟨nofun, rfl⟩
  | undefined hi => exact .inr ⟨(by rintro a rfl; cases hi), rfl⟩

/-- Settles O19: the memory after a step is the memory before it, or one write to it. -/
theorem stepKeepsMemoryCanonical : Obligations.StepKeepsMemoryCanonical := by
  intro s t hwf h
  obtain ⟨-, -, heff⟩ := step_next h
  obtain ⟨a, -, hmem⟩ | ⟨-, hmem⟩ := heff.mem_cases <;> rw [hmem, State.fetch_mem]
  · exact Memory.wf_write hwf a s.acc
  · exact hwf

/-- Settles O16: the instruction of the step writes the one word, or leaves the memory the fetch left. -/
theorem onlyStaChangesMemoryAndOneWord : Obligations.OnlyStaChangesMemoryAndOneWord := by
  intro s t h
  obtain ⟨-, -, heff⟩ := step_next h
  rw [← State.current]
  obtain ⟨a, hi, hmem⟩ | ⟨hno, hmem⟩ := heff.mem_cases <;> rw [hmem, State.fetch_mem]
  · refine ⟨fun b hb => ?_, fun hno => absurd hi (hno a)⟩
    obtain rfl : a = b := Instr.sta.inj (hi.symm.trans hb)
    exact ⟨Memory.read_write_same s.mem a s.acc, fun c hc => Memory.read_write_other s.mem hc.symm s.acc⟩
  · exact ⟨fun a hi => absurd hi (hno a), fun _ _ => rfl⟩

/-! ### What an instruction reads of memory (R46, R102) -/

theorem jumpIf_withMem (s : State) (taken : Bool) (a : Addr) (m : Memory) :
    State.jumpIf { s with mem := m } taken a = { s.jumpIf taken a with mem := m } := by
  cases taken <;> rfl

/-- On a memory that holds the same word at the operand's address, an instruction leaves the same state but for the
memory. -/
theorem exec_withMem {i : Instr} {s t : State} {m : Memory} (hm : m.read i.operand = s.mem.read i.operand)
    (h : exec i s = .next t) : ∃ n, exec i { s with mem := m } = .next { t with mem := n } := by
  cases i with
  | lda a =>
    cases h
    have hop : dataOperand a { s with mem := m } = dataOperand a s := hm
    exact ⟨m, by rw [exec, execLda, hop]; rfl⟩
  | add a =>
    cases h
    have hop : dataOperand a { s with mem := m } = dataOperand a s := hm
    exact ⟨m, by rw [exec, execAdd, hop]; rfl⟩
  | sub a =>
    cases h
    have hop : dataOperand a { s with mem := m } = dataOperand a s := hm
    exact ⟨m, by rw [exec, execSub, hop]; rfl⟩
  | sta a => cases h; exact ⟨m.write a s.acc, rfl⟩
  | jge a => cases h; exact ⟨m, congrArg _ (jumpIf_withMem s (!s.N) a m)⟩
  | jne a => cases h; exact ⟨m, congrArg _ (jumpIf_withMem s (!s.Z) a m)⟩
  | swi a =>
    cases h
    refine ⟨m, ?_⟩
    rw [exec, execSwi]
    split <;> rfl
  | _ => cases h; exact ⟨m, rfl⟩

/-- Settles O17: running the instruction on the other memory gives the first next state with some memory, which is the
second's. -/
theorem executeReadsOnlyTheOperandWord : Obligations.ExecuteReadsOnlyTheOperandWord := by
  intro i s t u m hm ht hu
  obtain ⟨n, hn⟩ := exec_withMem hm ht
  rw [hn] at hu
  cases hu
  rfl

/-! ### Reading after many writes (R43) -/

/-- Settles O24, by induction on the writes: a later write to the address decides the read on both sides, and where there
is none the first write decides it, or leaves it to the memory before. -/
theorem readGivesTheLatestWrite : Obligations.ReadGivesTheLatestWrite := by
  intro m writes a
  induction writes generalizing m with
  | nil => rfl
  | cons c ws ih =>
    rw [List.foldl_cons, ih, Memory.read_write, List.reverse_cons, List.find?_append, List.find?_singleton]
    cases ws.reverse.find? (fun d => decide (d.1 = a)) with
    | some d => rfl
    | none =>
      rw [Option.none_or]
      by_cases hc : c.1 = a
      · rw [if_pos hc, if_pos (decide_eq_true hc)]; rfl
      · rw [if_neg hc, if_neg (by rwa [decide_eq_true_iff])]

/-! ### Canonical memories are determined by their reads (R40) -/

theorem Memory.pairwise_of_risesFrom {k : Nat} {m : Memory} (hm : Memory.risesFrom k m = true) :
    (∀ c ∈ m, k < c.1) ∧ m.Pairwise (fun c d => c.1 < d.1) := by
  induction m generalizing k with
  | nil => exact ⟨nofun, .nil⟩
  | cons c rest ih =>
    simp only [Memory.risesFrom, Bool.and_eq_true, decide_eq_true_eq] at hm
    obtain ⟨hk, hrest⟩ := hm
    obtain ⟨hc, hpair⟩ := ih hrest
    exact ⟨List.forall_mem_cons.mpr ⟨hk, fun d hd => Nat.lt_trans hk (hc d hd)⟩, hpair.cons hc⟩

theorem Memory.pairwise_of_rises {m : Memory} (hm : Memory.rises m = true) :
    m.Pairwise (fun c d => c.1 < d.1) := by
  cases m with
  | nil => exact .nil
  | cons c rest =>
    obtain ⟨hc, hpair⟩ := Memory.pairwise_of_risesFrom hm
    exact hpair.cons hc

/-- A listed word is the one looked up at its address. -/
theorem Memory.lookup_of_mem {m : Memory} (hm : m.Pairwise (fun c d => c.1 < d.1)) {c : Cell} (hc : c ∈ m) :
    Memory.lookup c.1 m = c.2 := by
  induction hm with
  | nil => cases hc
  | cons hlt hrest ih =>
    obtain rfl | hc := List.mem_cons.mp hc
    · simp [Memory.lookup]
    · rw [Memory.lookup, if_neg (Nat.ne_of_lt (hlt c hc)), ih hc]

/-- An address that does not read as an unlisted one does is listed, with the word it reads as. -/
theorem Memory.mem_of_lookup {k : Nat} {v : Word} {m : Memory} (hv : v ≠ Memory.unlisted)
    (h : Memory.lookup k m = v) : (k, v) ∈ m := by
  induction m with
  | nil => exact absurd h.symm hv
  | cons c rest ih =>
    rw [Memory.lookup] at h
    split at h
    · next hk => subst hk h; exact List.mem_cons_self
    · exact List.mem_cons_of_mem _ (ih h)

/-- What a canonical memory lists is a matter of its reads alone. -/
theorem Memory.subset_of_read_eq {m n : Memory} (hm : m.wf = true) (h : ∀ a : Addr, m.read a = n.read a) :
    m ⊆ n := by
  rintro ⟨k, v⟩ hc
  obtain ⟨hrises, hcells⟩ := (Memory.wf_iff m).mp hm
  obtain ⟨hk, hv⟩ := hcells _ hc
  have hread := h (BitVec.ofNatLT k hk)
  exact Memory.mem_of_lookup hv (hread.symm.trans (Memory.lookup_of_mem (Memory.pairwise_of_rises hrises) hc))

theorem Memory.nodup_of_rises {m : Memory} (hm : Memory.rises m = true) : m.Nodup :=
  (Memory.pairwise_of_rises hm).imp fun hlt heq => Nat.ne_of_lt hlt (congrArg Prod.fst heq)

/-- Settles O25: the two lists have the same cells, by their reads, in the same order, by their addresses. -/
theorem canonicalMemoriesWithEqualReadsAreEqual : Obligations.CanonicalMemoriesWithEqualReadsAreEqual := by
  intro m n hm hn h
  obtain ⟨hmrises, -⟩ := (Memory.wf_iff m).mp hm
  obtain ⟨hnrises, -⟩ := (Memory.wf_iff n).mp hn
  have hmn : m ⊆ n := Memory.subset_of_read_eq hm h
  have hnm : n ⊆ m := Memory.subset_of_read_eq hn fun a => (h a).symm
  have hperm : m.Perm n :=
    (List.perm_ext_iff_of_nodup (Memory.nodup_of_rises hmrises) (Memory.nodup_of_rises hnrises)).mpr
      fun c => ⟨fun hc => hmn hc, fun hc => hnm hc⟩
  exact hperm.eq_of_pairwise (fun c d _ _ hcd hdc => absurd hdc (Nat.lt_asymm hcd))
    (Memory.pairwise_of_rises hmrises) (Memory.pairwise_of_rises hnrises)

/-! ### The serialised form of an image (R44, D7) -/

/-- The two bytes of a word in the order the image holds them (D7). -/
def bytesOfWord (order : Config.ByteOrder) (w : Word) : Byte × Byte :=
  match order with
  | .bigEndian => (w.extractLsb' 8 8, w.extractLsb' 0 8)
  | .littleEndian => (w.extractLsb' 0 8, w.extractLsb' 8 8)

theorem wordOfBytes_bytesOfWord (order : Config.ByteOrder) (w : Word) :
    wordOfBytes order (bytesOfWord order w).1 (bytesOfWord order w).2 = w := by
  have hw : w.extractLsb' 8 8 ++ w.extractLsb' 0 8 = w :=
    (BitVec.extractLsb'_append_extractLsb'_eq_extractLsb' (start₁ := 0) (len₁ := 8) rfl).trans
      BitVec.extractLsb'_eq_self
  cases order <;> exact hw

/-- Two bytes one after the other, read as a number. -/
theorem append_toNat (high low : Byte) : (high ++ low).toNat = 256 * high.toNat + low.toNat := by
  rw [BitVec.toNat_append, ← Nat.shiftLeft_add_eq_or_of_lt low.isLt, Nat.shiftLeft_eq, Nat.mul_comm]

/-- The bytes of an image, two for each of the 4096 words in address order. -/
def Image.toBytes (order : Config.ByteOrder) (image : Image) : List Byte :=
  (List.range (2 * Config.memWords)).map fun i =>
    let bytes := bytesOfWord order (image (BitVec.ofNat 12 (i / 2)))
    if i % 2 = 0 then bytes.1 else bytes.2

theorem Image.toBytes_getD (order : Config.ByteOrder) (image : Image) (a : Addr) :
    (image.toBytes order).getD (2 * a.toNat) 0 = (bytesOfWord order (image a)).1 ∧
    (image.toBytes order).getD (2 * a.toNat + 1) 0 = (bytesOfWord order (image a)).2 := by
  have ha : a.toNat < 4096 := a.isLt
  have heven : 2 * a.toNat < 2 * Config.memWords := by rw [Config.memWords]; omega
  have hodd : 2 * a.toNat + 1 < 2 * Config.memWords := by rw [Config.memWords]; omega
  have hhalf : (2 * a.toNat + 1) / 2 = a.toNat := by omega
  have hmod : (2 * a.toNat + 1) % 2 = 1 := by omega
  simp [Image.toBytes, heven, hodd, hhalf, hmod]

/-- What the loader answers, and when. -/
theorem Image.ofBytes_eq_some_iff (order : Config.ByteOrder) (bytes : List Byte) (image : Image) :
    Image.ofBytes order bytes = some image ↔ imageBytesOk bytes = true ∧
      ∀ a, image a = wordOfBytes order (bytes.getD (2 * a.toNat) 0) (bytes.getD (2 * a.toNat + 1) 0) := by
  rw [Image.ofBytes, imageBytesOk, beq_iff_eq]
  split
  · next h => simp only [h, true_and, Option.some.injEq, eq_comm, funext_iff]
  · next h => simp [h]

theorem Image.ofBytes_toBytes (order : Config.ByteOrder) (image : Image) :
    Image.ofBytes order (image.toBytes order) = some image := by
  refine (Image.ofBytes_eq_some_iff order _ image).mpr ⟨by simp [imageBytesOk, Image.toBytes], fun a => ?_⟩
  obtain ⟨hfirst, hsecond⟩ := image.toBytes_getD order a
  rw [hfirst, hsecond, wordOfBytes_bytesOfWord]

/-- Settles O28: the loader reads an image back from its bytes, and what it answers says the length and each word. -/
theorem everyImageHasASerialisedForm : Obligations.EveryImageHasASerialisedForm := by
  refine fun order => ⟨fun image => ⟨_, image.ofBytes_toBytes order⟩, fun bytes => ⟨?_, fun hlen => ?_⟩, ?_⟩
  · rintro ⟨image, h⟩
    exact ((Image.ofBytes_eq_some_iff order bytes image).mp h).1
  · exact ⟨_, (Image.ofBytes_eq_some_iff order bytes _).mpr ⟨hlen, fun _ => rfl⟩⟩
  · intro bytes image a first second h hfirst hsecond
    have hword : image a = wordOfBytes order first second := by
      rw [((Image.ofBytes_eq_some_iff order bytes image).mp h).2 a, List.getD_eq_getElem?_getD,
        List.getD_eq_getElem?_getD, hfirst, hsecond, Option.getD_some, Option.getD_some]
    rw [hword]
    constructor
    · rintro rfl
      exact append_toNat first second
    · rintro rfl
      exact (append_toNat second first).trans (Nat.add_comm _ _)

/-! ### A store into the instruction stream (R52, R174) -/

/-- A step of `sta` is the fetch, then the store. -/
theorem step_sta {s t : State} {a : Addr} (hi : decode (s.mem.read s.pc) = .sta a) (h : step s = .next t) :
    t = s.fetch.memWrite a s.acc ∧ t.halted = false := by
  obtain ⟨hrun, hexec, -⟩ := step_next h
  rw [State.current, hi] at hexec
  cases hexec
  exact ⟨rfl, hrun⟩

/-- Settles O29: the store changes the memory only after the fetch has set `ir`, and a fetch of the stored address reads
what the memory then holds there, which is the accumulator stored. -/
theorem storeIsSeenByTheNextFetch : Obligations.StoreIsSeenByTheNextFetch := by
  intro s t a hi h
  obtain ⟨rfl, hrun⟩ := step_sta hi h
  have hread : (s.fetch.memWrite a s.acc).mem.read a = s.acc := Memory.read_write_same s.mem a s.acc
  have hlater : ∀ u : State, u.halted = false → u.pc = a → u.mem.read a = s.acc →
      step u = exec (decode s.acc) u.fetch ∧ u.fetch.ir = s.acc := by
    rintro u hu rfl hmem
    exact ⟨by rw [step_running hu, State.current, hmem], hmem⟩
  refine ⟨rfl, fun ha => (hlater _ hrun ha.symm hread).1, fun u hu hpc hmem => ?_⟩
  exact hlater u hu hpc (hmem.trans hread)

end Sys2Proof.Machine
end

section
/-! PROOFS. The encoding (30_encoding.md R60 to R65): decoder and encoder are inverse to each other, the formula the
assembler writes, and the opcode map. -/

namespace Sys2Proof

open Sys2Proof.Machine

/-! ### The round trip (R60, R62, R65) -/

/-- Each row's opcode selects the row. -/
theorem decodeFields_opcode_operand (i : Instr) : decodeFields i.opcode i.operand = i := by
  cases i <;> simp [Instr.opcode, Instr.operand, decodeFields]

theorem decode_encode (i : Instr) : decode (encode i) = i := by
  rw [decode, opField_encode, operandField_encode, decodeFields_opcode_operand]

theorem opcode_decode (w : Word) : (decode w).opcode = opField w :=
  (decodeFields_fields (opField w) (operandField w)).1

theorem operand_decode (w : Word) : (decode w).operand = operandField w :=
  (decodeFields_fields (opField w) (operandField w)).2

theorem encode_decode (w : Word) : encode (decode w) = w := by
  rw [encode, opcode_decode, operand_decode, fields_append]

/-- Settles O2: the encoded word holds the opcode and the operand, and the opcode selects the instruction's own row. -/
theorem decodeOfEncodeIsIdentity : Obligations.DecodeOfEncodeIsIdentity := decode_encode

/-- Settles O3: encoding and decoding are inverse to each other. -/
theorem everyWordEncodesExactlyOneInstruction : Obligations.EveryWordEncodesExactlyOneInstruction := by
  refine fun w => ⟨encode_decode w, fun i hi => ?_⟩
  rw [← hi, decode_encode]

/-- Settles O1: the eleven words, decoded. -/
theorem specWordsDecodeAsWritten : Obligations.SpecWordsDecodeAsWritten := by
  unfold Obligations.SpecWordsDecodeAsWritten
  decide

/-! ### The formula of the encoding (R62) -/

/-- The mask 0xFFF drops no bit of an operand. -/
theorem setWidth_and_operandMask (a : Addr) : BitVec.setWidth 16 a &&& 0x0FFF#16 = BitVec.setWidth 16 a := by
  have ha : a.toNat < 2 ^ 12 := a.isLt
  have hmask : (0x0FFF#16).toNat = 2 ^ 12 - 1 := rfl
  apply BitVec.eq_of_toNat_eq
  rw [BitVec.toNat_and, hmask, Nat.and_two_pow_sub_one_eq_mod, BitVec.toNat_setWidth_of_le (by decide),
    Nat.mod_eq_of_lt ha]

/-- Settles O4: the concatenation is the or of its two fields, each moved to its place in the word. -/
theorem encodingIsShiftedOpcodeOrMaskedOperand : Obligations.EncodingIsShiftedOpcodeOrMaskedOperand := by
  refine fun i => ⟨?_, rfl⟩
  rw [setWidth_and_operandMask, encode, BitVec.append_def, BitVec.shiftLeftZeroExtend_eq, BitVec.setWidth'_eq]

/-- An encoded instruction's number holds the operand below 4096 and the opcode above. -/
theorem encode_toNat_fields (i : Instr) :
    (encode i).toNat % 4096 = i.operand.toNat ∧ (encode i).toNat / 4096 = i.opcode.toNat := by
  obtain ⟨-, -, hnum⟩ := Laws.encodedFields_all i
  have ha : i.operand.toNat < 4096 := i.operand.isLt
  omega

/-! ### The opcode bits (R61) -/

/-- Bit 15 of a word is the top bit of its opcode. -/
theorem getLsbD_three_opField (w : Word) : (opField w).getLsbD 3 = w.getLsbD 15 := by
  simp [opField]

/-- Bits 14:12 of a word are the low three bits of its opcode. -/
theorem extractLsb'_opField (w : Word) : (opField w).extractLsb' 0 3 = w.extractLsb' 12 3 := by
  apply BitVec.eq_of_getLsbD_eq
  intro k hk
  have hk4 : k < 4 := by omega
  simp [opField, hk4]

theorem opcode_bit3_clear_iff (i : Instr) : i.opcode.getLsbD 3 = false ↔ i.opcode.toNat ≤ 7 := by
  cases i <;> simp [Instr.opcode]

/-- `swi` is the row of opcode 8. -/
theorem eq_swi_iff_opcode (i : Instr) :
    (∃ a, i = .swi a) ↔ i.opcode.getLsbD 3 = true ∧ i.opcode.extractLsb' 0 3 = 0#3 := by
  cases i <;> simp [Instr.opcode]

/-- Opcodes 9 to 15 are the undefined ones. -/
theorem isUndefined_iff_opcode (i : Instr) :
    i.isUndefined = true ↔ i.opcode.getLsbD 3 = true ∧ i.opcode.extractLsb' 0 3 ≠ 0#3 := by
  cases i <;> simp [Instr.opcode, Instr.isUndefined]

/-- The no-op of R134. -/
theorem exec_of_isUndefined {i : Instr} (h : i.isUndefined = true) (s : State) : exec i s = .next s := by
  cases i with
  | undefined9 x => rfl
  | undefined10 x => rfl
  | undefined11 x => rfl
  | undefined12 x => rfl
  | undefined13 x => rfl
  | undefined14 x => rfl
  | undefined15 x => rfl
  | _ => cases h

/-- Settles O5: the bits of the word are those of the opcode, and the opcode is the decoded instruction's. -/
theorem allFourOpcodeBitsSelect : Obligations.AllFourOpcodeBitsSelect := by
  intro w
  rw [← getLsbD_three_opField, ← extractLsb'_opField, ← opcode_decode]
  refine ⟨opcode_decode w, opcode_bit3_clear_iff _, eq_swi_iff_opcode _, isUndefined_iff_opcode _,
    fun h15 hlow s => ?_⟩
  exact exec_of_isUndefined ((isUndefined_iff_opcode _).mpr ⟨h15, hlow⟩) s

/-! ### The opcode map (R63) -/

/-- Every row of the table has the mask 0xF000, and no two rows the same match. -/
theorem opcodeTable_rows : (∀ r ∈ opcodeTable, r.mask = 0xF000#16) ∧
    ∀ q ∈ opcodeTable, ∀ r ∈ opcodeTable, q.matchBits = r.matchBits → q = r := by
  decide

theorem covers_iff {r : OpcodeRow} (hr : r ∈ opcodeTable) (w : Word) :
    r.covers w = true ↔ w &&& 0xF000#16 = r.matchBits := by
  rw [OpcodeRow.covers, opcodeTable_rows.1 r hr, beq_iff_eq]

/-- The mask 0xF000 keeps the opcode and clears the operand. -/
theorem append_and_opcodeMask (op : OpBits) (a : Addr) : (op ++ a) &&& 0xF000#16 = op ++ 0x000#12 := by
  have hmask : (0xF000#16 : Word) = BitVec.allOnes 4 ++ 0x000#12 := rfl
  rw [hmask, BitVec.and_append, BitVec.and_allOnes, BitVec.and_zero]

/-- The table holds the row of every instruction, at its opcode. -/
theorem exists_row_of_instr (i : Instr) :
    ∃ r ∈ opcodeTable, r.mnemonic = i.mnemonic ∧ r.matchBits = i.opcode ++ 0x000#12 := by
  cases i <;> simp [opcodeTable, Instr.mnemonic, Instr.opcode]

/-- Settles O6: a row covers the words whose masked bits are its match, the decoded instruction's row is one, and the
matches of the rows are distinct. -/
theorem exactlyOneOpcodeRowCoversEachWord : Obligations.ExactlyOneOpcodeRowCoversEachWord := by
  intro w
  obtain ⟨r, hr, hname, hmatch⟩ := exists_row_of_instr (decode w)
  have hw : w &&& 0xF000#16 = r.matchBits := by
    rw [hmatch, ← append_and_opcodeMask _ (decode w).operand, ← encode, encode_decode]
  refine ⟨r, hr, (covers_iff hr w).mpr hw, hname, fun q hq hcov => opcodeTable_rows.2 q hq r hr ?_⟩
  rw [← (covers_iff hq w).mp hcov, hw]

end Sys2Proof
end

section
/-! PROOFS. Line preparation (30_encoding.md R68): what neither the tokens of a line nor an assembly depend on. -/

namespace Sys2Proof.Machine.Assembler

/-! ### Letter case -/

/-- An uppercase ASCII letter moves up by 32, the distance of the two cases; any other character stays. -/
theorem toLower_cases (c : Char) :
    (65 ≤ c.toNat ∧ c.toNat ≤ 90 ∧ c.toLower.toNat = c.toNat + 32) ∨
    (¬ (65 ≤ c.toNat ∧ c.toNat ≤ 90) ∧ c.toLower = c) := by
  have hupper : c.val ≥ 'A'.val ∧ c.val ≤ 'Z'.val ↔ 65 ≤ c.toNat ∧ c.toNat ≤ 90 := Iff.rfl
  rw [Char.toLower]
  split
  · next h =>
    obtain ⟨hlo, hhi⟩ := hupper.mp h
    refine .inl ⟨hlo, hhi, ?_⟩
    have hsum : (c.val + ('a'.val - 'A'.val)).toNat = (c.toNat + 32) % 2 ^ 32 := UInt32.toNat_add _ _
    rw [← Char.toNat_val, hsum]
    omega
  · next h => exact .inr ⟨fun hc => h (hupper.mpr hc), rfl⟩

theorem toLower_toLower (c : Char) : c.toLower.toLower = c.toLower := by
  obtain ⟨hlo, hhi, hc⟩ | ⟨-, hc⟩ := toLower_cases c
  · obtain ⟨hlo', hhi', -⟩ | ⟨-, hstays⟩ := toLower_cases c.toLower
    · omega
    · exact hstays
  · rw [hc, hc]

/-- No character before the letters is made or removed by lowercase. -/
theorem toLower_eq_iff_of_lt {d : Char} (hd : d.toNat < 65) (c : Char) : c.toLower = d ↔ c = d := by
  obtain ⟨hlo, hhi, hc⟩ | ⟨-, hc⟩ := toLower_cases c
  · rw [← Char.toNat_inj, ← Char.toNat_inj]
    omega
  · rw [hc]

theorem isSpace_toLower (c : Char) : isSpace c.toLower = isSpace c := by
  have hspace : ∀ d : Char, d.toNat < 65 → decide (c.toLower = d) = decide (c = d) := fun d hd =>
    decide_eq_decide.mpr (toLower_eq_iff_of_lt hd c)
  rw [isSpace, isSpace, Char.isWhitespace, Char.isWhitespace, hspace ' ' (by decide), hspace '\t' (by decide),
    hspace '\r' (by decide), hspace '\n' (by decide)]

/-- The tokens are taken in lowercase, so the case of the text is lost. -/
theorem splitTokens_map_toLower (cur text : List Char) :
    splitTokens cur (text.map Char.toLower) = splitTokens cur text := by
  induction text generalizing cur with
  | nil => rfl
  | cons c cs ih =>
    simp only [List.map_cons, splitTokens, isSpace_toLower, toLower_toLower, ih]

theorem prepareLine_map_toLower (line : List Char) : prepareLine (line.map Char.toLower) = prepareLine line := by
  have hcomment : (fun c => c != ';') ∘ Char.toLower = fun c => c != ';' := by
    funext c
    have hc : c.toLower = ';' ↔ c = ';' := toLower_eq_iff_of_lt (by decide) c
    simp only [Function.comp_apply, bne, Bool.beq_eq_decide_eq, hc]
  rw [prepareLine, List.takeWhile_map, hcomment, splitTokens_map_toLower, prepareLine]

/-- Lowercase leaves the line feeds where they are. -/
theorem splitLines_map_toLower (cur text : List Char) :
    splitLines (cur.map Char.toLower) (text.map Char.toLower) = (splitLines cur text).map (List.map Char.toLower) := by
  induction text generalizing cur with
  | nil => simp [splitLines]
  | cons c cs ih =>
    have hc : c.toLower = '\n' ↔ c = '\n' := toLower_eq_iff_of_lt (by decide) c
    simp only [List.map_cons, splitLines, beq_iff_eq, hc]
    split
    · rw [List.map_cons, List.map_reverse, ← ih, List.map_nil]
    · rw [← ih, List.map_cons]

theorem prepare_map_toLower (source : List Char) : prepare (source.map Char.toLower) = prepare source := by
  have hlines : splitLines [] (source.map Char.toLower) = (splitLines [] source).map (List.map Char.toLower) :=
    splitLines_map_toLower [] source
  have hprep : prepareLine ∘ List.map Char.toLower = prepareLine := funext prepareLine_map_toLower
  rw [prepare, hlines, List.map_map, hprep, prepare]

/-- Settles O44: the prepared lines are the same, and the passes read nothing else. -/
theorem assemblyIgnoresLetterCase : Obligations.AssemblyIgnoresLetterCase := by
  intro source
  rw [assemble, prepare_map_toLower, assemble]

/-! ### Comments and white space -/

/-- The tokens of a line read on from the token `cur`, its comment left out. -/
def tokensFrom (cur line : List Char) : List Token := splitTokens cur (line.takeWhile (fun c => c != ';'))

theorem prepareLine_eq (line : List Char) : prepareLine line = tokensFrom [] line := rfl

@[simp] theorem tokensFrom_nil (cur : List Char) : tokensFrom cur [] = if cur.isEmpty then [] else [cur.reverse] := rfl

@[simp] theorem tokensFrom_comment (cur comment : List Char) : tokensFrom cur (';' :: comment) = tokensFrom cur [] :=
  rfl

/-- A white-space character ends the token being read, if there is one. -/
theorem tokensFrom_space {c : Char} (hc : isSpace c = true) (cur line : List Char) :
    tokensFrom cur (c :: line) = tokensFrom cur [] ++ tokensFrom [] line := by
  have hcode : c ≠ ';' := by
    rintro rfl
    cases hc
  rw [tokensFrom, List.takeWhile_cons_of_pos (by simpa using hcode), splitTokens, if_pos hc, tokensFrom_nil]
  split <;> rfl

/-- Any other character goes on with the token. -/
theorem tokensFrom_letter {c : Char} (hcode : c ≠ ';') (hc : isSpace c = false) (cur line : List Char) :
    tokensFrom cur (c :: line) = tokensFrom (c.toLower :: cur) line := by
  rw [tokensFrom, List.takeWhile_cons_of_pos (by simpa using hcode), splitTokens, if_neg (by simp [hc]), tokensFrom]

/-- Two ends of a line that give the same tokens after every token do so after every beginning of the line. -/
theorem prepareLine_append_congr {tail tail' : List Char} (h : ∀ cur, tokensFrom cur tail = tokensFrom cur tail')
    (line : List Char) : prepareLine (line ++ tail) = prepareLine (line ++ tail') := by
  rw [prepareLine_eq, prepareLine_eq]
  generalize ([] : List Char) = cur
  induction line generalizing cur with
  | nil => exact h cur
  | cons c cs ih =>
    rw [List.cons_append, List.cons_append]
    by_cases hcode : c = ';'
    · subst hcode
      rw [tokensFrom_comment, tokensFrom_comment]
    · cases hc : isSpace c with
      | true => rw [tokensFrom_space hc, tokensFrom_space hc, ih]
      | false => rw [tokensFrom_letter hcode hc, tokensFrom_letter hcode hc, ih]

/-- Settles O45: a comment and white space at the end of a line read like nothing, and two white-space characters like
one; white space at its beginning ends no token. -/
theorem linePreparationDropsCommentsAndSpace : Obligations.LinePreparationDropsCommentsAndSpace := by
  refine ⟨fun line comment => ?_, fun c line hc => ⟨tokensFrom_space hc [] line, ?_⟩, fun line more c d hc hd => ?_⟩
  · rw [prepareLine_append_congr (tail' := []) fun cur => tokensFrom_comment cur comment, List.append_nil]
  · have hend : ∀ cur, tokensFrom cur [c] = tokensFrom cur [] := fun cur => by
      rw [tokensFrom_space hc]; exact List.append_nil _
    rw [prepareLine_append_congr hend, List.append_nil]
  · refine prepareLine_append_congr (fun cur => ?_) line
    rw [tokensFrom_space hc, tokensFrom_space hd, tokensFrom_space hc]
    rfl

end Sys2Proof.Machine.Assembler
end

section
/-! PROOFS. The assembler's two passes (30_encoding.md R69 to R79): the words a statement writes, the names pass 1 binds,
and the image the placed words make. -/

namespace Sys2Proof.Machine.Assembler

/-! ### Literals (R71) -/

theorem literal_of_literal? {x : Token} {v : Nat} (h : literal? x = some v) : literal x = .ok v := by
  rw [literal, h]

/-- A literal fits a word (D15). -/
theorem literal?_lt {x : Token} {v : Nat} (h : literal? x = some v) : v < 65536 := by
  rw [literal?] at h
  split at h
  · cases h
  · split at h
    · split at h
      · next hlt => cases h; exact hlt
      · cases h
    · cases h

/-! ### The words of statements (R62, R75, R77) -/

@[simp] theorem operand_instr (op : NameOp) (a : Addr) : (op.instr a).operand = a := by
  cases op <;> rfl

/-- The opcode of a mnemonic does not depend on its operand. -/
theorem opcode_instr (op : NameOp) (a : Addr) : (op.instr a).opcode = (op.instr 0x000#12).opcode := by
  cases op <;> rfl

theorem assemblable_instr (op : NameOp) (a : Addr) : (op.instr a).assemblable = true := by
  cases op <;> rfl

theorem encode_named_of_bound {syms : Symbols} {name : Token} {v : Nat} (h : syms.value? name = some v)
    (op : NameOp) :
    (WordStmt.named op name).encode syms = .ok (Sys2Proof.encode (op.instr (BitVec.ofNat 12 v))) := by
  rw [WordStmt.encode, h]

theorem encode_named_of_unbound {syms : Symbols} {name : Token} (h : syms.value? name = none) (op : NameOp) :
    (WordStmt.named op name).encode syms = .error (.undefinedSymbol name) := by
  rw [WordStmt.encode, h]

/-- Settles O47: the word is the encoding of the mnemonic's instruction at the name's value in 12 bits. -/
theorem namedOperandBecomesTheOperandField : Obligations.NamedOperandBecomesTheOperandField := by
  refine fun op name syms => ⟨fun v hv => ?_, fun hnone => encode_named_of_unbound hnone op⟩
  obtain ⟨hoperand, hopcode⟩ := encode_toNat_fields (op.instr (BitVec.ofNat 12 v))
  refine ⟨_, encode_named_of_bound hv op, ?_, ?_, decode_encode _⟩
  · rw [hoperand, operand_instr, BitVec.toNat_ofNat]
  · rw [hopcode, opcode_instr]

/-- Settles O48: `swi` encodes the literal's low 12 bits, and `defw` keeps the literal, which fits the word. -/
theorem swiLiteralIsMaskedAndDefwIsNot : Obligations.SwiLiteralIsMaskedAndDefwIsNot := by
  intro x v syms h
  obtain ⟨-, -, hnum⟩ := Laws.encodedFields_all (.swi (BitVec.ofNat 12 v))
  refine ⟨⟨_, by rw [WordStmt.encode, literal_of_literal? h]; rfl, ?_⟩,
    ⟨_, by rw [WordStmt.encode, literal_of_literal? h]; rfl, ?_⟩⟩
  · simp [hnum, Instr.opcode, Instr.operand]
  · rw [BitVec.toNat_ofNat]
    exact Nat.mod_eq_of_lt (literal?_lt h)

/-- A statement that is not `defw` writes the encoding of an instruction a source line produces (R66). -/
theorem encode_eq_encode_assemblable {syms : Symbols} {w : WordStmt} {v : Word} (hw : ∀ x, w ≠ .defw x)
    (h : w.encode syms = .ok v) : ∃ i : Instr, i.assemblable = true ∧ v = Sys2Proof.encode i := by
  cases w with
  | named op name =>
    cases hv : syms.value? name with
    | none => rw [encode_named_of_unbound hv] at h; cases h
    | some a => rw [encode_named_of_bound hv] at h; cases h; exact ⟨_, assemblable_instr op _, rfl⟩
  | stp => cases h; exact ⟨.stp 0x000#12, rfl, rfl⟩
  | swi x =>
    rw [WordStmt.encode] at h
    cases hx : literal x with
    | error e => rw [hx] at h; cases h
    | ok a => rw [hx] at h; cases h; exact ⟨_, rfl, rfl⟩
  | defw x => exact absurd rfl (hw x)

/-- Settles O52: the word decodes to the instruction it was encoded from. -/
theorem assembledInstructionsHaveAMnemonic : Obligations.AssembledInstructionsHaveAMnemonic := by
  intro syms w v hw h
  obtain ⟨i, hi, rfl⟩ := encode_eq_encode_assemblable hw h
  rw [decode_encode]
  exact ⟨hi, rfl⟩

/-! ### The names pass 1 binds (R72, R73) -/

theorem value?_cons (name n : Token) (v : Nat) (syms : Symbols) :
    Symbols.value? ((n, v) :: syms) name = if n = name then some v else syms.value? name := rfl

/-- A name with no value is bound nowhere. -/
theorem value?_eq_none_iff (syms : Symbols) (name : Token) :
    syms.value? name = none ↔ name ∉ syms.map Prod.fst := by
  induction syms with
  | nil => simp [Symbols.value?]
  | cons c rest ih =>
    obtain ⟨n, v⟩ := c
    rw [value?_cons, List.map_cons, List.mem_cons, not_or, ← ih]
    by_cases hn : n = name
    · simp [hn]
    · simp [hn, Ne.symm hn]

/-- A binding that succeeds is of a new name (D14). -/
theorem bind_eq_ok_iff {syms syms' : Symbols} {lineNo : Nat} {name : Token} {v : Nat} :
    syms.bind lineNo name v = .ok syms' ↔ syms.value? name = none ∧ syms' = (name, v) :: syms := by
  rw [Symbols.bind]
  cases syms.value? name <;> simp [eq_comm]

/-- What a line can do to the symbols: leave them, or bind one new name. -/
theorem bindNames_cases {st : Stmt} {lineNo address : Nat} {syms syms' : Symbols}
    (h : st.bindNames lineNo address syms = .ok syms') :
    syms' = syms ∨ ∃ name v, syms.value? name = none ∧ syms' = (name, v) :: syms := by
  cases st with
  | org v => cases h; exact .inl rfl
  | word w => cases h; exact .inl rfl
  | equ name v => exact .inr ⟨name, v, bind_eq_ok_iff.mp h⟩
  | label name w => exact .inr ⟨name, _, bind_eq_ok_iff.mp h⟩

/-- Pass 1 succeeds on a first line and a rest when it classifies the line, binds its names and succeeds on the rest. -/
theorem pass1_cons {address n : Nat} {syms final : Symbols} {ts : List Token} {rest : List (Nat × List Token)}
    {sts : List Stmt} (h : pass1 address syms ((n, ts) :: rest) = .ok (final, sts)) :
    ∃ st syms' more, parseLine n ts = .ok st ∧ st.bindNames n address syms = .ok syms' ∧
      pass1 (st.nextAddress address) syms' rest = .ok (final, more) := by
  rw [pass1] at h
  split at h
  · cases h
  · next st hst =>
    split at h
    · cases h
    · next syms' hsyms =>
      split at h
      · cases h
      · next symsEnd more hmore => cases h; exact ⟨st, syms', more, hst, hsyms, hmore⟩

/-- What every new binding keeps, pass 1 keeps. -/
theorem pass1_keeps {P : Symbols → Prop}
    (hbind : ∀ syms name v, P syms → Symbols.value? syms name = none → P ((name, v) :: syms))
    {lines : List (Nat × List Token)} {address : Nat} {syms final : Symbols} {sts : List Stmt}
    (hP : P syms) (h : pass1 address syms lines = .ok (final, sts)) : P final := by
  induction lines generalizing address syms sts with
  | nil => cases h; exact hP
  | cons line rest ih =>
    obtain ⟨st, syms', more, -, hsyms, hrest⟩ := pass1_cons h
    refine ih ?_ hrest
    obtain rfl | ⟨name, v, hnew, rfl⟩ := bindNames_cases hsyms
    · exact hP
    · exact hbind syms name v hP hnew

/-- Settles O50: each binding is of a name not bound yet. -/
theorem passOneNeverBindsANameTwice : Obligations.PassOneNeverBindsANameTwice := by
  intro address syms final lines sts hnodup h
  refine pass1_keeps (P := fun syms => (syms.map Prod.fst).Nodup) (fun syms name v hP hnew => ?_) hnodup h
  exact List.nodup_cons.mpr ⟨(value?_eq_none_iff syms name).mp hnew, hP⟩

/-- A name once bound keeps its value. -/
theorem value?_of_pass1 {address : Nat} {syms final : Symbols} {lines : List (Nat × List Token)} {sts : List Stmt}
    {name : Token} {v : Nat} (hv : syms.value? name = some v) (h : pass1 address syms lines = .ok (final, sts)) :
    final.value? name = some v := by
  refine pass1_keeps (P := fun syms => Symbols.value? syms name = some v) (fun syms n u hP hnew => ?_) hv h
  have hne : n ≠ name := by
    rintro rfl
    rw [hnew] at hP
    cases hP
  rw [value?_cons, if_neg hne, hP]

/-- Settles O51: the label line binds the name to the address counter, and a name once bound keeps its value. -/
theorem labelKeepsTheAddressOfItsLine : Obligations.LabelKeepsTheAddressOfItsLine := by
  intro address n syms final ts rest name w sts hparse h
  obtain ⟨st, syms', more, hst, hsyms, hrest⟩ := pass1_cons h
  rw [hparse] at hst
  cases hst
  obtain ⟨-, rfl⟩ := bind_eq_ok_iff.mp hsyms
  exact value?_of_pass1 (by rw [value?_cons, if_pos rfl]; rfl) hrest

/-! ### A constant and an instruction that uses it (R76) -/

/-- A mnemonic and a name are an instruction line. -/
theorem parseLine_named {t : Token} {op : NameOp} (ht : nameOp? t = some op) (lineNo : Nat) (name : Token) :
    parseLine lineNo [t, name] = .ok (.word (.named op name)) := by
  have hhead : isWordHead t = true := by simp [isWordHead, ht]
  have hstmt : wordStmt? [t, name] = some (.named op name) := by rw [wordStmt?, ht]
  rw [parseLine, if_pos hhead, hstmt]

/-- A name that is no reserved word, `equ` and a literal are a definition. -/
theorem parseLine_equ {name x : Token} {v : Nat} (hhead : isWordHead name = false) (horg : name ≠ "org".toList)
    (hequ : name ≠ "equ".toList) (hx : literal? x = some v) (lineNo : Nat) :
    parseLine lineNo [name, "equ".toList, x] = .ok (.equ name v) := by
  rw [parseLine, if_neg (by simp [hhead]), if_neg horg, if_neg hequ, if_pos rfl, literal_of_literal? hx]
  rfl

/-- Settles O49: pass 1 binds the constant and moves no address, so pass 2 encodes the line at address 0 with the value
bound, or finds none. -/
theorem equConstantIsTheAddressItself : Obligations.EquConstantIsTheAddressItself := by
  intro name x t v op n k hhead horg hequ hx ht
  constructor
  · have hpass1 : pass1 0 [] [(n, [name, "equ".toList, x]), (k, [t, name])] =
        .ok ([(name, v)], [.equ name v, .word (.named op name)]) := by
      simp only [pass1, parseLine_equ hhead horg hequ hx, parseLine_named ht, Stmt.bindNames, Symbols.bind,
        Symbols.value?]
    have hvalue : Symbols.value? [(name, v)] name = some v := if_pos rfl
    simp only [assembleLines, hpass1, pass2, Stmt.wordStmt?, Stmt.nextAddress, encode_named_of_bound hvalue, place]
  · have hpass1 : pass1 0 [] [(k, [t, name])] = .ok ([], [.word (.named op name)]) := by
      simp only [pass1, parseLine_named ht, Stmt.bindNames]
    have hvalue : Symbols.value? [] name = none := rfl
    simp only [assembleLines, hpass1, pass2, Stmt.wordStmt?, encode_named_of_unbound hvalue]

/-! ### The image (R78) -/

theorem place_eq_foldl (m : Memory) (placed : List (Addr × Word)) :
    place m placed = placed.foldl (fun n c => n.write c.1 c.2) m := by
  induction placed generalizing m with
  | nil => rfl
  | cons c rest ih => exact ih (m.write c.1 c.2)

theorem wf_place {m : Memory} (hm : m.wf = true) (placed : List (Addr × Word)) : (place m placed).wf = true := by
  induction placed generalizing m with
  | nil => exact hm
  | cons c rest ih => exact ih (Memory.wf_write hm c.1 c.2)

/-- An assembly that succeeds is both passes and the placing of their words. -/
theorem passes_of_assembleLines {lines : List (Nat × List Token)} {m : Memory} (h : assembleLines lines = .ok m) :
    ∃ syms sts placed, pass1 0 [] lines = .ok (syms, sts) ∧ pass2 syms 0 sts = .ok placed ∧ m = place [] placed := by
  rw [assembleLines] at h
  split at h
  · cases h
  · next syms sts hpass1 =>
    split at h
    · cases h
    · next placed hpass2 => cases h; exact ⟨syms, sts, placed, hpass1, hpass2, rfl⟩

/-- Settles O46: the image is the placed words written over the empty memory, which reads 0x0000 everywhere, and a read
gives the latest write. -/
theorem assembledImageHoldsTheLastLineOfEachAddress : Obligations.AssembledImageHoldsTheLastLineOfEachAddress := by
  intro source m h
  obtain ⟨syms, sts, placed, hpass1, hpass2, rfl⟩ := passes_of_assembleLines h
  refine ⟨wf_place rfl placed, syms, sts, placed, hpass1, hpass2, fun a => ?_⟩
  rw [place_eq_foldl, readGivesTheLatestWrite, Memory.read_nil]

end Sys2Proof.Machine.Assembler
end

section
/-! PROOFS. Data transfer (40_data_transfer.md): what `lda` and `sta` leave, field by field. -/

namespace Sys2Proof.Machine

/-- `lda` is one accumulator write, of the word at its address (R100). -/
theorem exec_lda (a : Addr) (s : State) : exec (.lda a) s = .next (s.writeAcc (s.mem.read (dataAddress a))) := rfl

/-- `sta` is one memory write, of the accumulator at its address (R101). -/
theorem exec_sta (a : Addr) (s : State) : exec (.sta a) s = .next (s.memWrite (dataAddress a) s.acc) := rfl

/-- Settles O31: an accumulator write leaves the flags in agreement with the word written, and every other field as it
was. -/
theorem ldaLoadsTheWordAndRecomputesFlags : Obligations.LdaLoadsTheWordAndRecomputesFlags := by
  intro a s
  obtain ⟨hZ, hN⟩ := flagsAgree_writeAcc s (s.mem.read (dataAddress a))
  exact ⟨_, exec_lda a s, State.writeAcc_acc s _, hZ, hN, by simp⟩

/-- Settles O32: the word written is read back at its address and nowhere else, and a memory write leaves every register
as it was. -/
theorem staStoresTheAccumulator : Obligations.StaStoresTheAccumulator := by
  intro a s
  have hsame := Memory.read_write_same s.mem (dataAddress a) s.acc
  have hother : ∀ b, b ≠ dataAddress a → (s.mem.write (dataAddress a) s.acc).read b = s.mem.read b :=
    fun b hb => Memory.read_write_other s.mem hb.symm s.acc
  exact ⟨_, exec_sta a s, hsame, hother, by simp⟩

end Sys2Proof.Machine
end

section
/-! PROOFS. Arithmetic (41_arithmetic.md): what `add` and `sub` leave, field by field, and the signed reading of their
results. -/

namespace Sys2Proof.Machine

/-! ### The sum and the difference modulo 65536 (R110, R111) -/

/-- `add` is one accumulator write, of the sum with the word at its address (R110). -/
theorem exec_add (a : Addr) (s : State) :
    exec (.add a) s = .next (s.writeAcc (aluAdd s.acc (s.mem.read (dataAddress a)))) := rfl

/-- `sub` is one accumulator write, of the accumulator minus the word at its address (R111). -/
theorem exec_sub (a : Addr) (s : State) :
    exec (.sub a) s = .next (s.writeAcc (aluSub s.acc (s.mem.read (dataAddress a)))) := rfl

/-- `aluSub` as R111 writes it: an integer difference reduced modulo 65536 is not negative. -/
theorem aluSub_toNat_cast (x y : Word) : ((aluSub x y).toNat : Int) = ((x.toNat : Int) - y.toNat) % 65536 := by
  rw [aluSub_toNat]
  exact Int.toNat_of_nonneg (Int.emod_nonneg _ (by decide))

/-- Settles O33: an accumulator write leaves the flags in agreement with the sum written, and every other field as it
was. -/
theorem addIsTheSumModulo65536 : Obligations.AddIsTheSumModulo65536 := by
  intro a s
  obtain ⟨hZ, hN⟩ := flagsAgree_writeAcc s (aluAdd s.acc (s.mem.read (dataAddress a)))
  exact ⟨_, exec_add a s, aluAdd_toNat _ _, hZ, hN, by simp⟩

/-- Settles O34: an accumulator write leaves the flags in agreement with the difference written, and every other field
as it was. -/
theorem subIsTheDifferenceModulo65536 : Obligations.SubIsTheDifferenceModulo65536 := by
  intro a s
  obtain ⟨hZ, hN⟩ := flagsAgree_writeAcc s (aluSub s.acc (s.mem.read (dataAddress a)))
  exact ⟨_, exec_sub a s, aluSub_toNat_cast _ _, hZ, hN, by simp⟩

/-! ### The signed reading (R113, decision D4) -/

/-- The signed reading of a sum is the exact sum, reduced to the balanced residue modulo 65536. -/
theorem aluAdd_toInt (x y : Word) : (aluAdd x y).toInt = (x.toInt + y.toInt).bmod 65536 := BitVec.toInt_add x y

/-- The signed reading of a difference is the exact difference, reduced to the balanced residue modulo 65536. -/
theorem aluSub_toInt (x y : Word) : (aluSub x y).toInt = (x.toInt - y.toInt).bmod 65536 := BitVec.toInt_sub

/-- The balanced residues modulo 65536 are the signed values of 16 bits. -/
theorem fitsSigned_bmod (v : Int) : FitsSigned (v.bmod 65536) := by
  have hlow : -32768 ≤ v.bmod 65536 := Int.le_bmod (by decide)
  have hhigh : v.bmod 65536 < 32768 := Int.bmod_lt (by decide)
  exact ⟨hlow, Int.le_of_lt_add_one hhigh⟩

/-- A value that fits 16 bits is its own balanced residue. -/
theorem bmod_eq_of_fitsSigned {v : Int} (h : FitsSigned v) : v.bmod 65536 = v :=
  Int.bmod_eq_of_le h.1 (Int.lt_add_one_of_le h.2)

/-- Settles O35: both results are the balanced residue of the exact one, which is congruent to it, fits 16 bits, and is
the exact one where that fits. -/
theorem signedArithmeticIsExactOrWraps : Obligations.SignedArithmeticIsExactOrWraps := by
  intro a s
  refine ⟨_, _, exec_add a s, exec_sub a s, ?_⟩
  simp only [State.writeAcc_acc, dataAddress_eq, aluAdd_toInt, aluSub_toInt]
  exact ⟨Int.dvd_bmod_sub_self, Int.dvd_bmod_sub_self, fitsSigned_bmod _, fitsSigned_bmod _,
    bmod_eq_of_fitsSigned, bmod_eq_of_fitsSigned⟩

end Sys2Proof.Machine
end

section
/-! PROOFS. Control transfer (42_control_transfer.md): what `jmp`, `jge` and `jne` leave, field by field, and what the
step after one of them runs. -/

namespace Sys2Proof.Machine

/-! ### The execute phase (R120, R121, R122) -/

/-- `jmp` is a jump that is always taken (R120). -/
theorem exec_jmp (a : Addr) (s : State) : exec (.jmp a) s = .next (s.jumpIf true a) := rfl

/-- `jge` is a jump taken when `N` is clear (R121). -/
theorem exec_jge (a : Addr) (s : State) : exec (.jge a) s = .next (s.jumpIf (!s.N) a) := rfl

/-- `jne` is a jump taken when `Z` is clear (R122). -/
theorem exec_jne (a : Addr) (s : State) : exec (.jne a) s = .next (s.jumpIf (!s.Z) a) := rfl

/-- A jump on a clear flag moves `pc` to its target when the flag is clear, and leaves `pc` when it is set. -/
theorem State.jumpIf_not_pc (s : State) (flag : Bool) (a : Addr) :
    (flag = false → (s.jumpIf (!flag) a).pc = a) ∧ (flag = true → (s.jumpIf (!flag) a).pc = s.pc) := by
  constructor
  · rintro rfl; rfl
  · rintro rfl; rfl

/-- Settles O36: the one field a taken jump writes is `pc`. -/
theorem jmpWritesTheTarget : Obligations.JmpWritesTheTarget := by
  intro a s
  exact ⟨_, exec_jmp a s, State.jumpIf_pc s true a, by simp⟩

/-- Settles O37: the jump is taken on a clear `N`, and taken or not it writes no field but `pc`. -/
theorem jgeJumpsWhenNegativeIsClear : Obligations.JgeJumpsWhenNegativeIsClear := by
  intro a s
  obtain ⟨hclear, hset⟩ := State.jumpIf_not_pc s s.N a
  exact ⟨_, exec_jge a s, hclear, hset, by simp⟩

/-- Settles O38: the jump is taken on a clear `Z`, and taken or not it writes no field but `pc`. -/
theorem jneJumpsWhenZeroIsClear : Obligations.JneJumpsWhenZeroIsClear := by
  intro a s
  obtain ⟨hclear, hset⟩ := State.jumpIf_not_pc s s.Z a
  exact ⟨_, exec_jne a s, hclear, hset, by simp⟩

/-! ### No delay slot (R123) -/

/-- The step after a jump runs the word at the address the jump left in `pc`, read in the memory as it was before the
jump. -/
theorem step_after_jump {s t : State} {taken : Bool} {a : Addr}
    (hjump : exec s.current s.fetch = .next (s.fetch.jumpIf taken a)) (h : step s = .next t) :
    step t = exec (decode (s.mem.read (if taken then a else s.pc + 1))) t.fetch := by
  obtain ⟨hrun, hexec, -⟩ := step_next h
  obtain rfl : s.fetch.jumpIf taken a = t := Host.Outcome.next.inj (hjump.symm.trans hexec)
  have hrun' : (s.fetch.jumpIf taken a).halted = false := by simp [hrun]
  rw [step_running hrun', State.current, State.jumpIf_mem, State.jumpIf_pc, State.fetch_mem, State.fetch_pc]

/-- Settles O30: each instruction with its flag is a jump that is taken, or one that is not, and the next step runs the
word where that jump left `pc`. -/
theorem jumpsHaveNoDelaySlot : Obligations.JumpsHaveNoDelaySlot := by
  refine fun s t a h => ⟨?taken, ?notTaken⟩
  case taken =>
    rintro (hi | ⟨hi, hN⟩ | ⟨hi, hZ⟩) <;> refine step_after_jump (taken := true) ?_ h
    · rw [State.current, hi, exec_jmp]
    · rw [State.current, hi, exec_jge, State.fetch_N, hN, Bool.not_false]
    · rw [State.current, hi, exec_jne, State.fetch_Z, hZ, Bool.not_false]
  case notTaken =>
    rintro (⟨hi, hN⟩ | ⟨hi, hZ⟩) <;> refine step_after_jump (taken := false) (a := a) ?_ h
    · rw [State.current, hi, exec_jge, State.fetch_N, hN, Bool.not_true]
    · rw [State.current, hi, exec_jne, State.fetch_Z, hZ, Bool.not_true]

end Sys2Proof.Machine
end

section
/-! PROOFS. The system instructions (43_system.md): what `stp`, `swi` and the undefined opcodes leave, field by field. -/

namespace Sys2Proof.Machine

/-! ### `stp` (R130, R131) -/

/-- `stp` sets the latch and signals, whatever its operand bits (R130). -/
theorem exec_stp (x : Addr) (s : State) : exec (.stp x) s = .next (s.halt.emit .halt) := rfl

/-- Settles O39: the state `stp` leaves does not mention its operand, and a core with the latch set takes no step. -/
theorem stpHaltsWithNoFurtherStep : Obligations.StpHaltsWithNoFurtherStep := by
  intro x s
  have hlatch : (s.halt.emit .halt).halted = true := State.halt_halted s
  exact ⟨_, exec_stp x s, hlatch, State.emit_signal _ _, by simp [exec_stp, step_halted hlatch]⟩

/-! ### `swi` (R132, R133) -/

/-- Code 0 signals the signed reading of the accumulator (R132). -/
theorem exec_swi_zero (s : State) : exec (.swi 0x000#12) s = .next (s.emit (.numberOutput s.acc.toInt)) := by
  rw [← sint16_eq_toInt]
  rfl

/-- A reserved code does nothing (R132). -/
theorem exec_swi_reserved {a : Addr} (ha : a ≠ 0x000#12) (s : State) : exec (.swi a) s = .next s := by
  have hcode : isOutputCode a = false := by simp [isOutputCode, ha]
  rw [exec, execSwi, hcode]
  rfl

/-- Settles O40: code 0 writes the signal alone, and a reserved code leaves the state the fetch left, whose signal is
`None`. -/
theorem swiOutputsOnlyForCodeZero : Obligations.SwiOutputsOnlyForCodeZero := by
  refine ⟨fun a s => ?executed, fun a s t hi ha h => ?stepped⟩
  case executed =>
    by_cases ha : a = 0x000#12
    · subst ha
      exact ⟨_, exec_swi_zero s, fun _ => rfl, fun hne => absurd rfl hne, by simp⟩
    · exact ⟨_, exec_swi_reserved ha s, fun hzero => absurd hzero ha, fun _ => rfl, by simp⟩
  case stepped =>
    obtain ⟨-, hexec, -⟩ := step_next h
    rw [State.current, hi, exec_swi_reserved ha] at hexec
    cases hexec
    exact State.fetch_signal s

/-! ### Opcodes 9 to 15 (R134) -/

/-- The undefined opcodes are those from 9 on. -/
theorem isUndefined_iff_nine_le (i : Instr) : i.isUndefined = true ↔ 9 ≤ i.opcode.toNat := by
  cases i <;> simp [Instr.isUndefined, Instr.opcode]

/-- A word from 0x9000 on decodes to an undefined opcode. -/
theorem isUndefined_decode {w : Word} (hw : 9 ≤ w.toNat / 4096) : (decode w).isUndefined = true := by
  have hlt : w.toNat < 65536 := w.isLt
  rw [isUndefined_iff_nine_le, opcode_decode_toNat]
  omega

/-- Settles O41: an undefined opcode leaves the state the fetch left, as it does every state. -/
theorem undefinedOpcodesAreNoOps : Obligations.UndefinedOpcodesAreNoOps := by
  constructor
  · intro x s
    refine ⟨?_, ?_, ?_, ?_, ?_, ?_, ?_⟩ <;> exact exec_of_isUndefined rfl s
  · intro s hs hw
    rw [step_running hs, State.current, exec_of_isUndefined (isUndefined_decode hw)]
    rfl

end Sys2Proof.Machine
end

section
/-! PROOFS. The host driver (60_exceptions.md R163): what its loop does with each outcome of a step, and that a run which
has stopped stays as it is. -/

namespace Sys2Proof.Machine.HostDriver

/-- A halted core gives the driver no step. -/
theorem drive_succ_of_halted {s : State} (hs : s.halted = true) (k : Nat) : drive (k + 1) s = ⟨[], .noStep, s⟩ := by
  rw [drive, step_halted hs]

/-- A silent step adds nothing to the run that goes on from it. -/
theorem drive_succ_of_none {s t : State} (h : step s = .next t) (hsig : t.signal = .none) (k : Nat) :
    drive (k + 1) s = drive k t := by
  simp only [drive, h, hsig, react]

/-- The step that signals `Halt` ends the run. -/
theorem drive_succ_of_halt {s t : State} (h : step s = .next t) (hsig : t.signal = .halt) (k : Nat) :
    drive (k + 1) s = ⟨[], .ended, t⟩ := by
  simp only [drive, h, hsig, react]

/-- A value signalled is the first output of the run that goes on. -/
theorem drive_succ_of_numberOutput {s t : State} {v : Int} (h : step s = .next t) (hsig : t.signal = .numberOutput v)
    (k : Nat) : drive (k + 1) s = (drive k t).consOutput v := by
  simp only [drive, h, hsig, react]

@[simp] theorem Run.consOutput_status (v : Int) (r : Run) : (r.consOutput v).status = r.status := rfl

/-- A run that no longer takes steps is the run for every larger number of steps. -/
theorem drive_eq_of_not_running {k j : Nat} {s : State} (hstop : (drive k s).status ≠ .running) (hkj : k ≤ j) :
    drive j s = drive k s := by
  induction k generalizing j s with
  | zero => exact absurd rfl hstop
  | succ k ih =>
    obtain ⟨j, rfl⟩ : ∃ i, j = i + 1 := Nat.exists_eq_succ_of_ne_zero (by omega)
    have hkj : k ≤ j := Nat.le_of_succ_le_succ hkj
    obtain ⟨hs, -⟩ | ⟨-, t, ht⟩ := step_cases s
    · rw [drive_succ_of_halted hs, drive_succ_of_halted hs]
    · cases hsig : t.signal with
      | none =>
        rw [drive_succ_of_none ht hsig] at hstop
        rw [drive_succ_of_none ht hsig, drive_succ_of_none ht hsig, ih hstop hkj]
      | halt => rw [drive_succ_of_halt ht hsig, drive_succ_of_halt ht hsig]
      | numberOutput v =>
        rw [drive_succ_of_numberOutput ht hsig, Run.consOutput_status] at hstop
        rw [drive_succ_of_numberOutput ht hsig, drive_succ_of_numberOutput ht hsig, ih hstop hkj]

/-- Settles O43: an ended run no longer takes steps. -/
theorem endedDriverRunIsFinal : Obligations.EndedDriverRunIsFinal := by
  intro k j s hended hkj
  exact drive_eq_of_not_running (by simp [hended]) hkj

end Sys2Proof.Machine.HostDriver
end

section
/-! PROOFS. The stops of a step (60_exceptions.md): the core raises no exception, so a step ends a run only where the core
was halted before it. -/

namespace Sys2Proof.Machine

/-- Settles O11: each of the two outcomes of a step, a fault of a halted core and a next state of any other, has the three
parts. -/
theorem onlyTheHaltedCoreHasNoStep : Obligations.OnlyTheHaltedCoreHasNoStep := by
  intro s
  obtain ⟨hs, hstep⟩ | ⟨hs, t, hstep⟩ := step_cases s
  · simp [hs, hstep, eq_comm]
  · simp [hs, hstep]

end Sys2Proof.Machine
end

section
/-! PROOFS. The host driver on a core that is not halted (60_exceptions.md R163): the steps it can meet, the runs
of its loop, and for each of them when the driver ends, which core it holds and what it has output. -/

namespace Sys2Proof.Machine

@[simp] theorem Signal.value?_none : Signal.none.value? = .none := rfl
@[simp] theorem Signal.value?_halt : Signal.halt.value? = .none := rfl
@[simp] theorem Signal.value?_numberOutput (v : Int) : (Signal.numberOutput v).value? = some v := rfl

/-- The signed reading of a word fits 16 bits. -/
theorem fitsSigned_toInt (w : Word) : FitsSigned w.toInt :=
  ⟨BitVec.le_toInt w, Int.le_of_lt_add_one BitVec.toInt_lt⟩

/-- The three ways a step of the core ends for the host: halted with `Halt`, or not halted, silent or with a value of 16
bits (R10, R27). -/
theorem step_signal_cases {s t : State} (h : step s = .next t) :
    (t.signal = .halt ∧ t.halted = true) ∨
    (t.signal = .none ∧ t.halted = false) ∨
    (∃ v, FitsSigned v ∧ t.signal = .numberOutput v ∧ t.halted = false) := by
  obtain ⟨hs, -, heff⟩ := step_next h
  have hlatch : t.halted = true ↔ ∃ x, s.current = .stp x := by
    rw [heff.halted_iff, State.fetch_halted, hs]
    simp
  obtain ⟨hstp, hsig⟩ | ⟨hswi, hsig⟩ | ⟨hstp, -, hsig⟩ := heff.signal_cases
  · exact .inl ⟨hsig, hlatch.mpr hstp⟩
  · exact .inr (.inr ⟨_, fitsSigned_toInt _, hsig, by simpa [hswi] using hlatch⟩)
  · exact .inr (.inl ⟨hsig, by simpa [hstp] using hlatch⟩)

/-- A run of `k` steps gives at most `k` signals. -/
theorem length_runSignals_le (k : Nat) (s : State) : (runSignals k s).length ≤ k :=
  Nat.le_trans (List.length_filterMap_le _ _) (Nat.le_of_eq List.length_range)

end Sys2Proof.Machine

namespace Sys2Proof.Machine.HostDriver

@[simp] theorem Run.consOutput_outputs (v : Int) (r : Run) : (r.consOutput v).outputs = v :: r.outputs := rfl

/-- The runs of the driver on a core that is not halted, by their first step: none is asked for, it halts, it is silent, or
it signals a value. -/
inductive DrivesTo : Nat → State → Run → Prop where
  | start {s : State} (hs : s.halted = false) : DrivesTo 0 s ⟨[], .running, s⟩
  | halt {k : Nat} {s t : State} (h : step s = .next t) (hsig : t.signal = .halt) (ht : t.halted = true) :
      DrivesTo (k + 1) s ⟨[], .ended, t⟩
  | silent {k : Nat} {s t : State} {r : Run} (h : step s = .next t) (hsig : t.signal = .none) (rest : DrivesTo k t r) :
      DrivesTo (k + 1) s r
  | output {k : Nat} {s t : State} {r : Run} {v : Int} (h : step s = .next t) (hsig : t.signal = .numberOutput v)
      (hv : FitsSigned v) (rest : DrivesTo k t r) : DrivesTo (k + 1) s (r.consOutput v)

/-- The driver's loop on a core that is not halted is one of these runs. -/
theorem drivesTo_drive (k : Nat) {s : State} (hs : s.halted = false) : DrivesTo k s (drive k s) := by
  induction k generalizing s with
  | zero => exact .start hs
  | succ k ih =>
    obtain ⟨hhalted, -⟩ | ⟨-, t, h⟩ := step_cases s
    · simp [hs] at hhalted
    · obtain ⟨hsig, ht⟩ | ⟨hsig, ht⟩ | ⟨v, hv, hsig, ht⟩ := step_signal_cases h
      · rw [drive_succ_of_halt h hsig]
        exact .halt h hsig ht
      · rw [drive_succ_of_none h hsig]
        exact .silent h hsig (ih ht)
      · rw [drive_succ_of_numberOutput h hsig]
        exact .output h hsig hv (ih ht)

section

variable {k : Nat} {s : State} {r : Run}

/-- The driver always gets its step, and it has ended exactly when its core is halted, on the signal `Halt` (R163, R176). -/
theorem DrivesTo.ends_exactly_at_halt (h : DrivesTo k s r) :
    r.status ≠ .noStep ∧ (r.status = .ended ↔ r.core.halted = true) ∧ (r.status = .ended → r.core.signal = .halt) := by
  induction h with
  | start hs => exact ⟨nofun, by simp [hs], nofun⟩
  | halt _ hsig ht => exact ⟨nofun, by simp [ht], fun _ => hsig⟩
  | silent _ _ _ ih => exact ih
  | output _ _ _ _ ih => exact ih

/-- The driver's core is the one a run of the machine reaches, by every step asked for while the driver is running. -/
theorem DrivesTo.core_eq_run (h : DrivesTo k s r) :
    ∃ j, j ≤ k ∧ Host.Core.run core j s = .next r.core ∧ (r.status = .running → j = k) := by
  induction h with
  | start _ => exact ⟨0, Nat.le_refl 0, rfl, fun _ => rfl⟩
  | halt h _ _ => exact ⟨1, Nat.le_add_left 1 _, run_succ h 0, nofun⟩
  | silent h _ _ ih | output h _ _ _ ih =>
    obtain ⟨j, hj, hrun, hall⟩ := ih
    exact ⟨j + 1, Nat.succ_le_succ hj, (run_succ h j).trans hrun, fun hr => congrArg (· + 1) (hall hr)⟩

/-- The outputs are the values of the signals of the steps taken, in order (R131, R163). -/
theorem DrivesTo.outputs_eq (h : DrivesTo k s r) : r.outputs = (runSignals k s).filterMap Signal.value? := by
  induction h with
  | start _ => rfl
  | halt h hsig ht => simp [runSignals_succ h, hsig, runSignals_halted ht]
  | silent h hsig _ ih => simp [runSignals_succ h, hsig, ih, List.filterMap_cons]
  | output h hsig _ _ ih => simp [runSignals_succ h, hsig, ih]

/-- Every output is a signed integer of 16 bits (R132). -/
theorem DrivesTo.fitsSigned (h : DrivesTo k s r) : ∀ v ∈ r.outputs, FitsSigned v := by
  induction h with
  | start _ => nofun
  | halt _ _ _ => nofun
  | silent _ _ _ ih => exact ih
  | output _ _ hv _ ih => exact List.forall_mem_cons.mpr ⟨hv, ih⟩

/-- At most one value is output for each step asked for. -/
theorem DrivesTo.length_outputs_le (h : DrivesTo k s r) : r.outputs.length ≤ k := by
  rw [h.outputs_eq]
  exact Nat.le_trans (List.length_filterMap_le _ _) (length_runSignals_le k s)

end

/-- Settles O42: each part is one of what holds of every run `DrivesTo` lists. -/
theorem driverEndsExactlyAtHalt : Obligations.DriverEndsExactlyAtHalt := by
  refine ⟨⟨rfl, rfl, fun _ => rfl⟩, fun k s hs => ?_⟩
  have h : DrivesTo k s (drive k s) := drivesTo_drive k hs
  obtain ⟨hstep, hended, hsig⟩ := h.ends_exactly_at_halt
  exact ⟨hstep, hended, hsig, h.core_eq_run, h.outputs_eq, rfl, h.length_outputs_le, h.fitsSigned⟩

end Sys2Proof.Machine.HostDriver
end

section
/-! PROOFS. Reset and runs (70_reset_and_hazards.md): the state reset leaves and the first step from it, where a run stops,
and a run that never does. -/

namespace Sys2Proof.Machine

/-! ### Reset with an image (R170) -/

/-- The memory array reads as the image it holds, at each of its 4096 addresses. -/
@[simp] theorem Memory.read_ofImage (image : Image) (a : Addr) : (Memory.ofImage image).read a = image a := by
  have ha : 0 ≤ a.toNat ∧ a.toNat < 0 + Config.memWords := ⟨Nat.zero_le _, by simpa [Config.memWords] using a.isLt⟩
  rw [Memory.read, Memory.ofImage, Memory.lookup_ofImageFrom, if_pos ha, BitVec.ofNat_toNat, BitVec.setWidth_eq]

/-- An image of zeros lists nothing. -/
theorem Memory.ofImage_zero : Memory.ofImage (fun _ => 0x0000#16) = [] :=
  canonicalMemoriesWithEqualReadsAreEqual _ _ (Memory.wf_ofImage _) rfl (Memory.read_ofImage _)

theorem resetWith_zero : State.resetWith (fun _ => 0x0000#16) = State.reset := by
  rw [State.resetWith, Memory.ofImage_zero]
  rfl

theorem inv_resetWith (image : Image) : (State.resetWith image).Inv :=
  ⟨Memory.wf_ofImage image, flagsAgree_resetWith image⟩

/-- Settles O26: the memory reset leaves reads as the image, and the image of zeros lists nothing, as `State.reset`. -/
theorem resetLoadsTheImageVerbatim : Obligations.ResetLoadsTheImageVerbatim :=
  ⟨fun image => ⟨Memory.ofImage image, rfl, Memory.read_ofImage image⟩, resetWith_zero⟩

/-- Settles O20: `State.reset` is one of the resets with an image, and each of them meets both invariants. -/
theorem resetMeetsTheInvariants : Obligations.ResetMeetsTheInvariants := by
  refine ⟨?_, inv_resetWith⟩
  rw [← resetWith_zero]
  exact inv_resetWith _

/-! ### The first step (R171, R172) -/

/-- Settles O27: the state of the execute phase is what the fetch at address 0 leaves of the reset. -/
theorem firstStepExecutesAddressZero : Obligations.FirstStepExecutesAddressZero := by
  intro image
  have hword : (State.resetWith image).mem.read (State.resetWith image).pc = image 0x000#12 :=
    Memory.read_ofImage image 0x000#12
  refine ⟨(State.resetWith image).fetch, ?_, rfl, hword, rfl, rfl, rfl, rfl, rfl, Memory.read_ofImage image⟩
  rw [step_running rfl, State.current, hword]

/-! ### Where a run stops (R162, R176) -/

/-- A run answers a next state, or the fault of a halted state it reached before. -/
theorem run_cases (k : Nat) (s : State) :
    (∃ t, Host.Core.run core k s = .next t) ∨
    (Host.Core.run core k s = .fault .halted ∧
      ∃ j t, j < k ∧ Host.Core.run core j s = .next t ∧ t.halted = true) := by
  induction k generalizing s with
  | zero => exact .inl ⟨s, rfl⟩
  | succ k ih =>
    obtain ⟨hs, -⟩ | ⟨-, u, hu⟩ := step_cases s
    · exact .inr ⟨run_halted hs k, 0, s, Nat.succ_pos k, rfl, hs⟩
    · rw [run_succ hu]
      obtain hnext | ⟨hstop, j, t, hj, hrun, ht⟩ := ih u
      · exact .inl hnext
      · exact .inr ⟨hstop, j + 1, t, Nat.succ_lt_succ hj, (run_succ hu j).trans hrun, ht⟩

/-- The core is halted only where its last step signalled it. -/
def HaltIsSignalled (s : State) : Prop := s.halted = true → s.signal = .halt

/-- The step that halts the core is the one that signals `Halt`. -/
theorem haltIsSignalled_of_step {s t : State} (h : step s = .next t) : HaltIsSignalled t := by
  intro hhalted
  obtain ⟨hsig, -⟩ | ⟨-, ht⟩ | ⟨v, -, -, ht⟩ := step_signal_cases h
  · exact hsig
  · simp [ht] at hhalted
  · simp [ht] at hhalted

/-- Settles O22: a run that stops does so at a halted state, and from a core that is not halted every state a run reaches
is halted only where that is signalled. -/
theorem runsStopOnlyInTheHaltedState : Obligations.RunsStopOnlyInTheHaltedState := by
  intro k s
  obtain ⟨u, hu⟩ | ⟨hstop, j, t, hj, hrun, ht⟩ := run_cases k s
  · simp [hu]
  · refine ⟨by simp [hstop], fun _ _ => ⟨j, t, hj, hrun, ht, fun hs => ?_⟩⟩
    have hstart : HaltIsSignalled s := fun hhalted => absurd hhalted (by simp [hs])
    exact run_keeps (fun _ _ _ => haltIsSignalled_of_step) j hstart hrun ht

/-! ### A jump to its own address (R120, R176) -/

/-- A state that a step leaves as it is, every run leaves as it is. -/
theorem run_of_step_self {s : State} (h : step s = .next s) (k : Nat) : Host.Core.run core k s = .next s := by
  induction k with
  | zero => rfl
  | succ k ih => rw [run_succ h, ih]

/-- A step of a jump to its own address is the fetch, with `pc` put back. -/
theorem step_selfJump {s : State} (hs : s.halted = false) (hi : decode (s.mem.read s.pc) = .jmp s.pc) :
    step s = .next (s.fetch.setPc s.pc) := by
  rw [step_running hs, State.current, hi]
  exact exec_jmp s.pc s.fetch

/-- Settles O23: the first step sets `ir` and the signal alone, and every later one finds them so already. -/
theorem selfJumpRunsForever : Obligations.SelfJumpRunsForever := by
  intro s k hs hi
  cases k with
  | zero => exact ⟨s, rfl, rfl, rfl, rfl, rfl, hs, rfl, nofun⟩
  | succ k =>
    have hfixed : step (s.fetch.setPc s.pc) = .next (s.fetch.setPc s.pc) :=
      step_selfJump (s := s.fetch.setPc s.pc) hs hi
    refine ⟨s.fetch.setPc s.pc, ?_, rfl, rfl, rfl, rfl, hs, rfl, fun _ => rfl⟩
    rw [run_succ (step_selfJump hs hi), run_of_step_self hfixed]

end Sys2Proof.Machine
end

section
/-! PROOFS. The bits of a table word (30_encoding.md R60, R67): the decoder of given bits answers where they pass the
well-formedness check of one instruction word, and nowhere else. -/

namespace Sys2Proof

theorem tableWordOk_iff (nbits w : Nat) : tableWordOk nbits w = true ↔ nbits ≤ Config.wordWidth ∧ w < 2 ^ nbits := by
  simp [tableWordOk]

/-- The two refusals of `decodeBits` are the two ways to fail the check. -/
theorem decodeTableWord_eq_ite (nbits w : Nat) :
    decodeTableWord nbits w = if tableWordOk nbits w = true then some (decode (BitVec.ofNat 16 w)) else none := by
  by_cases hlen : nbits ≤ Config.wordWidth
  · by_cases hbits : w < 2 ^ nbits
    · simp [decodeTableWord, decodeBits, tableWordOk_iff, hlen, hbits, Except.toOption]
    · simp [decodeTableWord, decodeBits, tableWordOk_iff, hlen, hbits, Except.toOption]
  · simp [decodeTableWord, decodeBits, tableWordOk_iff, hlen, Except.toOption]

/-- Settles O7: bits that pass the check decode as the word, and no others decode. -/
theorem tableWordsDecodeAsTheWord : Obligations.TableWordsDecodeAsTheWord := by
  intro nbits w i
  rw [decodeTableWord_eq_ite, Option.ite_none_right_eq_some, Option.some_inj, eq_comm (a := i)]

end Sys2Proof
end
